-- ==== Sys2Proof/Word.lean ====
section
/-! DEFINITION. The value types of the Blue-VM CORE (00_scope.md R5, R8): every register, operand and result is an
unsigned integer of a stated width, and what wraps, wraps modulo a power of two, so each is a bit vector. -/

namespace Sys2Proof

/-- A register value or an instruction word: 32 bits, unsigned (R5, R8). -/
abbrev Word := BitVec 32

/-- One of the 8-bit fields of an instruction word: the opcode byte, or field A, B or C (R5, R70). -/
abbrev Field := BitVec 8

/-- The 16-bit immediate view of an instruction word (R5, R72). -/
abbrev Imm := BitVec 16

/-- `R_COUNT`: the number of registers, and so the first invalid register index (R5, R6, R23). -/
abbrev rCount : Nat := 20

/-- A valid register index, 0 to 19 (R23). An instruction's field is a `Field`; it becomes a `RegIdx` when it is
validated (R106). -/
abbrev RegIdx := Fin rCount

end Sys2Proof
end

