-- ==== Sys2Proof/Config.lean ====
section
/-! DEFINITION. The parameters the spec leaves open (00_scope.md R6), as plain data, and what every choice of them must
satisfy. The spec's default values stand in Sys2Proof/Decode.lean (`Config.spec`). -/

namespace Sys2Proof

/-- The 25 opcode names (30_encoding.md R78), in the order of the default numbering. -/
inductive Opcode where
  | opNthng | opCease | opIlegl
  | rload
  | rradd | rrsub | rrmux | rrdiv
  | jumpa | jumpf | jumpb | rjmpa | rjmpf | rjmpb
  | rreql | rrnql | rrgte | rrlte | rrgtx | rrltx | rrcmp
  | rjmpq | rjmpn | jumpq | jumpn
deriving DecidableEq, Repr

/-- The place of a name in that order; `Config.opc` lists the opcode bytes by it. -/
def Opcode.index : Opcode → Fin 25
  | .opNthng => 0 | .opCease => 1 | .opIlegl => 2
  | .rload => 3
  | .rradd => 4 | .rrsub => 5 | .rrmux => 6 | .rrdiv => 7
  | .jumpa => 8 | .jumpf => 9 | .jumpb => 10 | .rjmpa => 11 | .rjmpf => 12 | .rjmpb => 13
  | .rreql => 14 | .rrnql => 15 | .rrgte => 16 | .rrlte => 17 | .rrgtx => 18 | .rrltx => 19 | .rrcmp => 20
  | .rjmpq => 21 | .rjmpn => 22 | .jumpq => 23 | .jumpn => 24

/-- Every opcode name, in that order. -/
def Opcode.all : List Opcode :=
  [.opNthng, .opCease, .opIlegl, .rload, .rradd, .rrsub, .rrmux, .rrdiv, .jumpa, .jumpf, .jumpb, .rjmpa, .rjmpf,
   .rjmpb, .rreql, .rrnql, .rrgte, .rrlte, .rrgtx, .rrltx, .rrcmp, .rjmpq, .rjmpn, .jumpq, .jumpn]

/-- `RESERVED_STATUS`: the status of the three reserved opcodes (46_reserved.md R180 to R182; the admissible
alternative is named in 93_implementation_defined.md U3). -/
inductive ReservedStatus where
  /-- `Continue`, the default (92_eei_decisions.md D11). -/
  | continues
  /-- `UnknownOpcode(b)` with the reserved opcode's own byte. -/
  | unknownOpcode
deriving DecidableEq, Repr

/-- `DIV_COLLISION`: which of RRDIV's two results survives when its DR is `R_RMDR` (42_arithmetic.md R131). -/
inductive DivCollision where
  /-- The remainder, the default (92_eei_decisions.md D10). -/
  | remainder
  /-- The quotient. -/
  | quotient
deriving DecidableEq, Repr

/-- The configuration of one machine: the parameters of R6. `next_word` is not here: it is an input of every step
(`Machine.State.inputs`). `R_COUNT` is `rCount`, fixed by the 16 + 4 registers of R5. -/
structure Config where
  /-- `OPC`: the opcode byte of each name, listed by `Opcode.index` (R78). -/
  opc : Vector Field 25
  /-- `IDX_PC`: the register index of `R_PC` (R23). -/
  idxPc : RegIdx
  /-- `IDX_RMDR`: the register index of `R_RMDR` (R23). -/
  idxRmdr : RegIdx
  /-- `IDX_COND`: the register index of `R_COND` (R23). -/
  idxCond : RegIdx
  /-- `IDX_COMP`: the register index of `R_COMP` (R23). -/
  idxComp : RegIdx
  /-- `RESERVED_STATUS` (R180 to R182). -/
  reservedStatus : ReservedStatus
  /-- `DIV_COLLISION` (R131). -/
  divCollision : DivCollision
deriving DecidableEq, Repr

/-- `OPC(op)`: the opcode byte of a name. -/
def Config.opcOf (cfg : Config) (op : Opcode) : Field := cfg.opc[op.index]

/-- The four special registers' indices, in the order of R23. -/
def Config.specials (cfg : Config) : List RegIdx := [cfg.idxPc, cfg.idxRmdr, cfg.idxCond, cfg.idxComp]

/-- What R6 asks of a choice of the parameters: `OPC` is injective and `0xFF` is not one of its values; the special
registers' indices are distinct, and distinct from the general registers' 0 to 15. -/
abbrev Config.Admissible (cfg : Config) : Prop :=
  cfg.opc.toList.Nodup ∧ (0xFF : Field) ∉ cfg.opc.toList ∧ cfg.specials.Nodup ∧ ∀ i ∈ cfg.specials, 16 ≤ i.val

end Sys2Proof
end

