-- ==== Sys2Proof/Syntax.lean ====
section
/-! DEFINITION. The instructions of the Blue-VM CORE: one constructor per row of spec/opcode_table.json, with the
operands of 30_encoding.md R76 in the source's order. A register operand is the raw 8-bit field (R74): whether it names
a register is checked when the instruction is executed (40_dispatch.md R106), not when it is decoded (R71). A field the
opcode does not use is no operand (R77). -/

namespace Sys2Proof

/-- A decoded instruction (R76). `dr` is the destination register, `r1`, `r2` and `reg` are sources. -/
inductive Instr where
  /-- `OP_NTHNG()`, reserved (R180). -/
  | opNthng
  /-- `OP_CEASE()`, reserved (R181). -/
  | opCease
  /-- `OP_ILEGL()`, reserved (R182). -/
  | opIlegl
  /-- `RLOAD(DR, imm16)` (R120). -/
  | rload (dr : Field) (imm : Imm)
  /-- `RRADD(r1, r2, DR)` (R125). -/
  | rradd (r1 r2 dr : Field)
  /-- `RRSUB(r1, r2, DR)` (R126). -/
  | rrsub (r1 r2 dr : Field)
  /-- `RRMUX(r1, r2, DR)`, a multiply (R127). -/
  | rrmux (r1 r2 dr : Field)
  /-- `RRDIV(r1, r2, DR)` (R128). -/
  | rrdiv (r1 r2 dr : Field)
  /-- `JUMPA(imm16)` (R140). -/
  | jumpa (imm : Imm)
  /-- `JUMPF(imm16)` (R141). -/
  | jumpf (imm : Imm)
  /-- `JUMPB(imm16)` (R142). -/
  | jumpb (imm : Imm)
  /-- `RJMPA(reg)` (R143). -/
  | rjmpa (reg : Field)
  /-- `RJMPF(reg)` (R144). -/
  | rjmpf (reg : Field)
  /-- `RJMPB(reg)` (R145). -/
  | rjmpb (reg : Field)
  /-- `RREQL(r1, r2)` (R156). -/
  | rreql (r1 r2 : Field)
  /-- `RRNQL(r1, r2)` (R157). -/
  | rrnql (r1 r2 : Field)
  /-- `RRGTE(r1, r2)` (R158). -/
  | rrgte (r1 r2 : Field)
  /-- `RRLTE(r1, r2)` (R159). -/
  | rrlte (r1 r2 : Field)
  /-- `RRGTX(r1, r2)` (R160). -/
  | rrgtx (r1 r2 : Field)
  /-- `RRLTX(r1, r2)` (R161). -/
  | rrltx (r1 r2 : Field)
  /-- `RRCMP(r1, r2)` (R162). -/
  | rrcmp (r1 r2 : Field)
  /-- `RJMPQ(reg)` (R170). -/
  | rjmpq (reg : Field)
  /-- `RJMPN(reg)` (R171). -/
  | rjmpn (reg : Field)
  /-- `JUMPQ(imm16)` (R172). -/
  | jumpq (imm : Imm)
  /-- `JUMPN(imm16)` (R173). -/
  | jumpn (imm : Imm)
deriving DecidableEq, Repr

end Sys2Proof
end

