-- ==== Sys2Proof/WellFormed.lean ====
section
/-! DEFINITION. When an instruction's register fields name registers (40_dispatch.md R106). An ill-formed instruction is
still a legal word and still executes: its step reports `InvalidRegister` and changes nothing. -/

namespace Sys2Proof

/-- The register fields of an instruction, in the order A, B, C in which R106 checks them (30_encoding.md R76). -/
def Instr.regFields : Instr → List Field
  | .opNthng | .opCease | .opIlegl => []
  | .rload dr _ => [dr]
  | .rradd r1 r2 dr | .rrsub r1 r2 dr | .rrmux r1 r2 dr | .rrdiv r1 r2 dr => [r1, r2, dr]
  | .jumpa _ | .jumpf _ | .jumpb _ => []
  | .rjmpa reg | .rjmpf reg | .rjmpb reg => [reg]
  | .rreql r1 r2 | .rrnql r1 r2 | .rrgte r1 r2 | .rrlte r1 r2 | .rrgtx r1 r2 | .rrltx r1 r2 | .rrcmp r1 r2 => [r1, r2]
  | .rjmpq reg | .rjmpn reg => [reg]
  | .jumpq _ | .jumpn _ => []

/-- The register field an instruction names as its destination `DR` (10_state.md R24). -/
def Instr.destField : Instr → Option Field
  | .rload dr _ => some dr
  | .rradd _ _ dr | .rrsub _ _ dr | .rrmux _ _ dr | .rrdiv _ _ dr => some dr
  | .opNthng | .opCease | .opIlegl => none
  | .jumpa _ | .jumpf _ | .jumpb _ | .rjmpa _ | .rjmpf _ | .rjmpb _ => none
  | .rreql _ _ | .rrnql _ _ | .rrgte _ _ | .rrlte _ _ | .rrgtx _ _ | .rrltx _ _ | .rrcmp _ _ => none
  | .rjmpq _ | .rjmpn _ | .jumpq _ | .jumpn _ => none

/-- Whether a field names a register: it is below `R_COUNT` (R106). -/
abbrev Field.NamesRegister (f : Field) : Prop := f.toNat < rCount

/-- Every register field of the instruction names a register. -/
abbrev Instr.WellFormed (i : Instr) : Prop := ∀ f ∈ i.regFields, Field.NamesRegister f

end Sys2Proof
end

