-- ==== Sys2Proof/Decode.lean ====
section
/-! DEFINITION. The instruction decoder and the encoder (30_encoding.md R70 to R79), and the spec's default values of
the parameters of 00_scope.md R6 (they stand here because a numbering is something a test can show wrong). -/

namespace Sys2Proof

/-- The default of `OPC`: the reserved names first, then the opcodes in the order of the effect table (R78). -/
def defaultOpc : Vector Field 25 :=
  #v[0x00, 0x01, 0x02, 0x03, 0x04, 0x05, 0x06, 0x07, 0x08, 0x09, 0x0A, 0x0B, 0x0C,
     0x0D, 0x0E, 0x0F, 0x10, 0x11, 0x12, 0x13, 0x14, 0x15, 0x16, 0x17, 0x18]

/-- The spec's default of every parameter (R6, R23, R78). -/
def Config.spec : Config where
  opc := defaultOpc
  idxPc := 16
  idxRmdr := 17
  idxCond := 18
  idxComp := 19
  reservedStatus := .continues
  divCollision := .remainder

/-- `DecodedInstruction`: what the decoder gives for a word (R71). -/
structure DecodedInstruction where
  /-- `word[31:24]` -/
  opcode : Field
  /-- `word[23:16]` -/
  a : Field
  /-- `word[15:8]` -/
  b : Field
  /-- `word[7:0]` -/
  c : Field
  /-- `word[15:0]`, which is `B ++ C` (R72) -/
  imm16 : Imm
deriving DecidableEq, Repr

/-- The decoder of R71: pure, total, never fails; bit slices only. -/
def decodeFields (w : Word) : DecodedInstruction where
  opcode := w.extractLsb' 24 8
  a := w.extractLsb' 16 8
  b := w.extractLsb' 8 8
  c := w.extractLsb' 0 8
  imm16 := w.extractLsb' 0 16

/-- The word with the given four fields: `opcode ++ A ++ B ++ C` (R70). -/
def wordOf (opcode a b c : Field) : Word := opcode ++ a ++ b ++ c

/-- The opcode name a byte stands for, if any (R79). -/
def Config.opcodeOf (cfg : Config) (b : Field) : Option Opcode :=
  Opcode.all.find? fun op => cfg.opcOf op == b

/-- Why a word is no instruction. -/
inductive DecodeReject where
  /-- Its opcode byte `b` is the value of none of the 25 names (46_reserved.md R183). -/
  | unknownOpcode (b : Field)
deriving DecidableEq, Repr

/-- The instruction a name and the word's fields make: the field roles of R76. -/
def Opcode.instr (op : Opcode) (d : DecodedInstruction) : Instr :=
  match op with
  | .opNthng => .opNthng
  | .opCease => .opCease
  | .opIlegl => .opIlegl
  | .rload => .rload d.a d.imm16
  | .rradd => .rradd d.a d.b d.c
  | .rrsub => .rrsub d.a d.b d.c
  | .rrmux => .rrmux d.a d.b d.c
  | .rrdiv => .rrdiv d.a d.b d.c
  | .jumpa => .jumpa d.imm16
  | .jumpf => .jumpf d.imm16
  | .jumpb => .jumpb d.imm16
  | .rjmpa => .rjmpa d.a
  | .rjmpf => .rjmpf d.a
  | .rjmpb => .rjmpb d.a
  | .rreql => .rreql d.a d.b
  | .rrnql => .rrnql d.a d.b
  | .rrgte => .rrgte d.a d.b
  | .rrlte => .rrlte d.a d.b
  | .rrgtx => .rrgtx d.a d.b
  | .rrltx => .rrltx d.a d.b
  | .rrcmp => .rrcmp d.a d.b
  | .rjmpq => .rjmpq d.a
  | .rjmpn => .rjmpn d.a
  | .jumpq => .jumpq d.imm16
  | .jumpn => .jumpn d.imm16

/-- The instruction a word stands for under a configuration, or the rejection by name: `decode`, then the
classification of the opcode byte at dispatch (R71, R79). Total on every word. -/
def decode (cfg : Config) (w : Word) : Except DecodeReject Instr :=
  match cfg.opcodeOf (decodeFields w).opcode with
  | some op => .ok (op.instr (decodeFields w))
  | none => .error (.unknownOpcode (decodeFields w).opcode)

/-- The opcode name of an instruction. -/
def Instr.opcode : Instr → Opcode
  | .opNthng => .opNthng
  | .opCease => .opCease
  | .opIlegl => .opIlegl
  | .rload _ _ => .rload
  | .rradd _ _ _ => .rradd
  | .rrsub _ _ _ => .rrsub
  | .rrmux _ _ _ => .rrmux
  | .rrdiv _ _ _ => .rrdiv
  | .jumpa _ => .jumpa
  | .jumpf _ => .jumpf
  | .jumpb _ => .jumpb
  | .rjmpa _ => .rjmpa
  | .rjmpf _ => .rjmpf
  | .rjmpb _ => .rjmpb
  | .rreql _ _ => .rreql
  | .rrnql _ _ => .rrnql
  | .rrgte _ _ => .rrgte
  | .rrlte _ _ => .rrlte
  | .rrgtx _ _ => .rrgtx
  | .rrltx _ _ => .rrltx
  | .rrcmp _ _ => .rrcmp
  | .rjmpq _ => .rjmpq
  | .rjmpn _ => .rjmpn
  | .jumpq _ => .jumpq
  | .jumpn _ => .jumpn

/-- The high byte of an immediate, which field B holds (R72). -/
def immHi (imm : Imm) : Field := imm.extractLsb' 8 8

/-- The low byte of an immediate, which field C holds (R72). -/
def immLo (imm : Imm) : Field := imm.extractLsb' 0 8

/-- The fields A, B, C of an instruction's canonical encoding, an unused field being 0 (R75). -/
def Instr.fields : Instr → Field × Field × Field
  | .opNthng | .opCease | .opIlegl => (0, 0, 0)
  | .rload dr imm => (dr, immHi imm, immLo imm)
  | .rradd r1 r2 dr | .rrsub r1 r2 dr | .rrmux r1 r2 dr | .rrdiv r1 r2 dr => (r1, r2, dr)
  | .jumpa imm | .jumpf imm | .jumpb imm | .jumpq imm | .jumpn imm => (0, immHi imm, immLo imm)
  | .rjmpa reg | .rjmpf reg | .rjmpb reg | .rjmpq reg | .rjmpn reg => (reg, 0, 0)
  | .rreql r1 r2 | .rrnql r1 r2 | .rrgte r1 r2 | .rrlte r1 r2 | .rrgtx r1 r2 | .rrltx r1 r2 | .rrcmp r1 r2 => (r1, r2, 0)

/-- The canonical encoding of an instruction under a configuration (R75). -/
def encode (cfg : Config) (i : Instr) : Word :=
  wordOf (cfg.opcOf i.opcode) i.fields.1 i.fields.2.1 i.fields.2.2

/-- The one instruction word of a bit string of `nbits` bits numbered as spec/opcode_table.json numbers them, the bits
above `nbits` zero. An instruction is one word of 32 bits and no longer (R70, R81). -/
def tableWord (nbits w : Nat) : Word := BitVec.ofNat 32 (w % 2 ^ nbits)

/-- The instruction the decoder reads from a row of spec/opcode_table.json, under the default parameters. The CORE
takes the word whole, so no byte order enters (20_memory.md R53). -/
def decodeTableWord (nbits w : Nat) : Option Instr :=
  if nbits ≤ 32 then (decode Config.spec (tableWord nbits w)).toOption else none

end Sys2Proof
end

