-- ==== Sys2Proof/Machine/State.lean ====
section
/-! DEFINITION. The state of the machine (10_state.md R20 to R38), the statuses a step returns (60_exceptions.md R190),
the reasons a step could stop (there is none), and the state after reset (R38, 70_reset_and_hazards.md R220). -/

namespace Sys2Proof.Machine

/-- The status of one step (R190). -/
inductive Status where
  /-- `Continue`: the instruction completed and its whole effect was applied. -/
  | cont
  /-- `UnknownOpcode(b)`: the opcode byte `b` names no operation. -/
  | unknownOpcode (b : Field)
  /-- `DivisionByZero`: RRDIV with a divisor of 0. -/
  | divisionByZero
  /-- `InvalidRegister(i)`: a register field holds `i`, which is 20 or more. -/
  | invalidRegister (i : Field)
deriving DecidableEq, Repr

/-- The register file: 20 slots of 32 bits, all of the CORE's architectural state (R20). -/
abbrev RegFile := Vector Word rCount

/-- What the driver puts on the CORE's input ports in one clock cycle (40_dispatch.md R112). -/
structure PortsIn where
  /-- `rst`: synchronous reset, active high. -/
  rst : Bool
  /-- `instr_valid`: a word is presented this cycle. -/
  instrValid : Bool
  /-- `instr_word`: the instruction word. -/
  instrWord : Word
deriving DecidableEq, Repr

/-- A cycle in which a word is presented. -/
def PortsIn.word (w : Word) : PortsIn := ⟨false, true, w⟩

/-- One machine: its register file, and beside it what is the model's own (log entries 1 and 3): the configuration,
which no step changes, and the driver's side of the interface. -/
structure State where
  /-- The parameters of 00_scope.md R6, fixed for the machine. -/
  config : Config
  /-- The register file (R20). -/
  regs : RegFile
  /-- The input ports' values in the cycles to come, next first: `next_word` (R101, R112). -/
  inputs : List PortsIn
  /-- The statuses returned to the driver, oldest first (R111). The CORE reads none of them (R35). -/
  statuses : List Status
deriving DecidableEq, Repr

/-- Why a step could stop with a fault. No status and no word stops this machine (40_dispatch.md R102, R109), so there
is no reason: the type is empty, and a step that faults is impossible by typing (safe: nothing is cut short). -/
inductive Fault where
deriving DecidableEq, Repr

/-- Why a step could be refused. -/
inductive Refusal where
  /-- An instruction whose meaning is not modelled, by its mnemonic; raised by an arm of `exec` only. No arm raises it
  any more. Safe: a refused step claims nothing. -/
  | notModelled (mnemonic : String)
deriving DecidableEq, Repr

/-- What a step answers. -/
abbrev Result := Host.Outcome State Fault Refusal

/-- The register file right after reset: every register is 0 (R38, R220). -/
def RegFile.zero : RegFile := Vector.replicate rCount 0

/-- The machine right after reset (R38): every register 0. The configuration is the spec's default, the driver has
presented nothing yet, and no status has been returned. -/
def State.reset : State where
  config := Config.spec
  regs := RegFile.zero
  inputs := []
  statuses := []

end Sys2Proof.Machine
end

