-- ==== Sys2Proof/Machine/Ops.lean ====
section
/-! DEFINITION. The named operations over the register file, completing an instruction and raising an error: every
meaning is written with these, and a lemma of Sys2Proof/Laws/Ops.lean says once what each can do. -/

namespace Sys2Proof.Machine

/-- `x[i]` (00_scope.md R9): the value of register `i`. Reading has no side effect (20_memory.md R55). -/
def RegFile.read (x : RegFile) (i : RegIdx) : Word := x[i]

/-- `x[i] <- v` (R9): register `i` replaced whole (R55). No register is hardwired (10_state.md R22, R25). -/
def RegFile.write (x : RegFile) (i : RegIdx) (v : Word) : RegFile := x.set i v

/-- `x` with every write applied, in the list's order (40_dispatch.md R102). -/
def RegFile.writeAll (x : RegFile) : List (RegIdx × Word) → RegFile
  | [] => x
  | (i, v) :: ws => (x.write i v).writeAll ws

/-- Register `i` of a machine. -/
def State.reg (s : State) (i : RegIdx) : Word := s.regs.read i

/-- `x[PC]` (10_state.md R26). -/
def State.pc (s : State) : Word := s.reg s.config.idxPc

/-- `x[RMDR]` (R29). -/
def State.rmdr (s : State) : Word := s.reg s.config.idxRmdr

/-- `x[COND]` (R30). -/
def State.cond (s : State) : Word := s.reg s.config.idxCond

/-- `x[COMP]` (R31). -/
def State.comp (s : State) : Word := s.reg s.config.idxComp

/-- A status handed back to the driver; it is kept nowhere in the CORE (R35, 60_exceptions.md R192). -/
def State.report (s : State) (st : Status) : State := { s with statuses := s.statuses ++ [st] }

/-- An instruction that completes: all its writes land together after all its reads (40_dispatch.md R104), and the
status is `Continue` (R105). -/
def complete (s : State) (writes : List (RegIdx × Word)) : Result :=
  .next (State.report { s with regs := s.regs.writeAll writes } .cont)

/-- `raise E(info)` (60_exceptions.md R194): the machine's whole way of taking an exception. No register changes,
nothing is saved, no mode and no pc changes, there is no handler (R192, R196); the step returns the status and the next
word runs as any other (40_dispatch.md R109). There is no return from it (R197). -/
def raise (s : State) (e : Status) : Result := .next (s.report e)

/-- The status `RESERVED_STATUS` stands for on the reserved opcode `op` (46_reserved.md R180 to R182). -/
def reservedStatusOf (cfg : Config) (op : Opcode) : Status :=
  match cfg.reservedStatus with
  | .continues => .cont
  | .unknownOpcode => .unknownOpcode (cfg.opcOf op)

/-- A reserved opcode: no read, no write, status `RESERVED_STATUS` (R180 to R182). -/
def reserve (op : Opcode) (s : State) : Result := .next (s.report (reservedStatusOf s.config op))

/-- A jump: a write to `R_PC` and nothing more (43_jumps.md, introduction). -/
def jumpTo (s : State) (t : Word) : Result := complete s [(s.config.idxPc, t)]

/-- A conditional jump: taken when its condition holds, else no register changes; status `Continue` either way
(45_conditional_jumps.md R170 to R173). -/
def jumpToIf (c : Bool) (s : State) (t : Word) : Result := if c then jumpTo s t else complete s []

/-- RRDIV's writes when `DR` is `d`, the quotient `q` and the remainder `r` (42_arithmetic.md R128; when `d` is
`R_RMDR`, `DIV_COLLISION` says which result survives, R131). -/
def divWrites (cfg : Config) (d : RegIdx) (q r : Word) : List (RegIdx × Word) :=
  if d = cfg.idxRmdr then
    match cfg.divCollision with
    | .remainder => [(cfg.idxRmdr, r)]
    | .quotient => [(cfg.idxRmdr, q)]
  else [(d, q), (cfg.idxRmdr, r)]

end Sys2Proof.Machine
end

