-- ==== Sys2Proof/Machine/Operands.lean ====
section
/-! DEFINITION. The operand forms (30_encoding.md R73, R74): register fields, validated in the order A, B, C before
anything is read (40_dispatch.md R106 to R108), and the zero-extended immediate. -/

namespace Sys2Proof.Machine

/-- `zext_32(imm16)`: the immediate operand, never sign-extended, scaled or shifted (R74). -/
def zext32 (imm : Imm) : Word := imm.setWidth 32

/-- The register a field names: the field's value itself, if it is below `R_COUNT` (R74, R106). -/
def validReg (f : Field) : Option RegIdx :=
  if h : f.toNat < rCount then some ⟨f.toNat, h⟩ else none

/-- The operand form of one register field: `InvalidRegister` with the field's value if it names no register
(R106); the rest of the instruction with the register otherwise. -/
def withReg (f : Field) (s : State) (k : RegIdx → Result) : Result :=
  match validReg f with
  | some i => k i
  | none => raise s (.invalidRegister f)

/-- Two register fields, the first checked first (R106). -/
def withRegs2 (f g : Field) (s : State) (k : RegIdx → RegIdx → Result) : Result :=
  withReg f s fun i => withReg g s fun j => k i j

/-- Three register fields, checked in order (R106). -/
def withRegs3 (f g h : Field) (s : State) (k : RegIdx → RegIdx → RegIdx → Result) : Result :=
  withReg f s fun i => withRegs2 g h s fun j l => k i j l

end Sys2Proof.Machine
end

