-- ==== Sys2Proof/Machine/Arithmetic.lean ====
section
/-! DEFINITION. The arithmetic family (42_arithmetic.md). Every operation is on 32-bit unsigned values and wraps
modulo 2^32; none sets a flag (R129). -/

namespace Sys2Proof.Machine

/-- RRADD (R125): `x[DR] <- (x[r1] + x[r2]) mod 2^32`. -/
def execRradd (r1 r2 dr : Field) (s : State) : Result :=
  withRegs3 r1 r2 dr s fun a b d => complete s [(d, s.reg a + s.reg b)]

/-- RRSUB (R126): `x[DR] <- (x[r1] - x[r2]) mod 2^32`. -/
def execRrsub (r1 r2 dr : Field) (s : State) : Result :=
  withRegs3 r1 r2 dr s fun a b d => complete s [(d, s.reg a - s.reg b)]

/-- RRMUX (R127): `x[DR] <- (x[r1] * x[r2]) mod 2^32`, a multiply. -/
def execRrmux (r1 r2 dr : Field) (s : State) : Result :=
  withRegs3 r1 r2 dr s fun a b d => complete s [(d, s.reg a * s.reg b)]

/-- RRDIV (R128): `DivisionByZero` on a zero divisor, else the unsigned quotient to DR and the remainder to `R_RMDR`,
both from the values before the instruction (40_dispatch.md R104); DR = `R_RMDR` as R131 says. -/
def execRrdiv (r1 r2 dr : Field) (s : State) : Result :=
  withRegs3 r1 r2 dr s fun a b d =>
    if s.reg b = 0 then raise s .divisionByZero
    else complete s (divWrites s.config d (s.reg a / s.reg b) (s.reg a % s.reg b))

end Sys2Proof.Machine
end

