-- ==== Sys2Proof/Machine/Flags.lean ====
section
/-! DEFINITION. What comparisons write and what conditional jumps test (44_comparisons.md R155, R162;
45_conditional_jumps.md R174). There is no other flag: arithmetic sets none (10_state.md R32). -/

namespace Sys2Proof.Machine

/-- The whole 32-bit value a flag comparison writes: 1 when the relation holds, 0 when it does not (R155). -/
def flagWord (holds : Bool) : Word := if holds then 1 else 0

/-- The comparison code EQUAL (R162). -/
def codeEqual : Word := 2

/-- The comparison code GREATER (R162). -/
def codeGreater : Word := 1

/-- The comparison code LESS (R162). -/
def codeLess : Word := 4

/-- The three-way comparison of two unsigned values (R162). -/
def orderCode (a b : Word) : Word :=
  if a = b then codeEqual else if b.toNat < a.toNat then codeGreater else codeLess

/-- The condition of the "Q" forms: the whole of `R_COND` is not 0 (R174). -/
def State.flagSet (s : State) : Bool := s.cond != 0

/-- The condition of the "N" forms: the whole of `R_COND` is 0 (R174). -/
def State.flagClear (s : State) : Bool := s.cond == 0

end Sys2Proof.Machine
end

