-- ==== Sys2Proof/Machine/Comparisons.lean ====
section
/-! DEFINITION. The comparison family (44_comparisons.md): unsigned, all 32 bits (R155). -/

namespace Sys2Proof.Machine

/-- A flag comparison: the two registers are compared as unsigned integers and the whole of `R_COND` becomes 1 or 0
(R155). -/
def compareWith (rel : Nat → Nat → Bool) (r1 r2 : Field) (s : State) : Result :=
  withRegs2 r1 r2 s fun a b =>
    complete s [(s.config.idxCond, flagWord (rel (s.reg a).toNat (s.reg b).toNat))]

/-- RREQL (R156): `x[COND] <- 1` if `x[r1] = x[r2]`, else 0. -/
def execRreql (r1 r2 : Field) (s : State) : Result := compareWith (fun a b => decide (a = b)) r1 r2 s

/-- RRNQL (R157): `x[COND] <- 1` if `x[r1] != x[r2]`, else 0. -/
def execRrnql (r1 r2 : Field) (s : State) : Result := compareWith (fun a b => decide (a ≠ b)) r1 r2 s

/-- RRGTE (R158): `x[COND] <- 1` if `x[r1] >= x[r2]`, else 0. -/
def execRrgte (r1 r2 : Field) (s : State) : Result := compareWith (fun a b => decide (a ≥ b)) r1 r2 s

/-- RRLTE (R159): `x[COND] <- 1` if `x[r1] <= x[r2]`, else 0. -/
def execRrlte (r1 r2 : Field) (s : State) : Result := compareWith (fun a b => decide (a ≤ b)) r1 r2 s

/-- RRGTX (R160): `x[COND] <- 1` if `x[r1] > x[r2]`, else 0. -/
def execRrgtx (r1 r2 : Field) (s : State) : Result := compareWith (fun a b => decide (a > b)) r1 r2 s

/-- RRLTX (R161): `x[COND] <- 1` if `x[r1] < x[r2]`, else 0. -/
def execRrltx (r1 r2 : Field) (s : State) : Result := compareWith (fun a b => decide (a < b)) r1 r2 s

/-- RRCMP (R162): the whole of `R_COMP` becomes EQUAL, GREATER or LESS; `R_COND` is not written. -/
def execRrcmp (r1 r2 : Field) (s : State) : Result :=
  withRegs2 r1 r2 s fun a b => complete s [(s.config.idxComp, orderCode (s.reg a) (s.reg b))]

end Sys2Proof.Machine
end

