-- ==== Sys2Proof/Machine/ConditionalJumps.lean ====
section
/-! DEFINITION. The conditional jumps (45_conditional_jumps.md): the register forms absolute, the immediate forms
relative forward. A register field is validated whether or not the jump is taken (40_dispatch.md R107), and the flag
is not changed (R174). -/

namespace Sys2Proof.Machine

/-- RJMPQ (R170): if `x[COND] != 0`, `x[PC] <- x[reg]`. -/
def execRjmpq (reg : Field) (s : State) : Result :=
  withReg reg s fun r => jumpToIf s.flagSet s (s.reg r)

/-- RJMPN (R171): if `x[COND] = 0`, `x[PC] <- x[reg]`. -/
def execRjmpn (reg : Field) (s : State) : Result :=
  withReg reg s fun r => jumpToIf s.flagClear s (s.reg r)

/-- JUMPQ (R172): if `x[COND] != 0`, `x[PC] <- x[PC] + zext_32(imm16)`. -/
def execJumpq (imm : Imm) (s : State) : Result := jumpToIf s.flagSet s (s.pc + zext32 imm)

/-- JUMPN (R173): if `x[COND] = 0`, `x[PC] <- x[PC] + zext_32(imm16)`. -/
def execJumpn (imm : Imm) (s : State) : Result := jumpToIf s.flagClear s (s.pc + zext32 imm)

end Sys2Proof.Machine
end

