-- ==== Sys2Proof/Machine/Jumps.lean ====
section
/-! DEFINITION. The unconditional jumps (43_jumps.md): writes to `R_PC` modulo 2^32, one per instruction (R147), with
no effect on which word runs next (40_dispatch.md R101). -/

namespace Sys2Proof.Machine

/-- JUMPA (R140): `x[PC] <- zext_32(imm16)`. -/
def execJumpa (imm : Imm) (s : State) : Result := jumpTo s (zext32 imm)

/-- JUMPF (R141): `x[PC] <- x[PC] + zext_32(imm16)`. -/
def execJumpf (imm : Imm) (s : State) : Result := jumpTo s (s.pc + zext32 imm)

/-- JUMPB (R142): `x[PC] <- x[PC] - zext_32(imm16)`. -/
def execJumpb (imm : Imm) (s : State) : Result := jumpTo s (s.pc - zext32 imm)

/-- RJMPA (R143): `x[PC] <- x[reg]`. -/
def execRjmpa (reg : Field) (s : State) : Result :=
  withReg reg s fun r => jumpTo s (s.reg r)

/-- RJMPF (R144): `x[PC] <- x[PC] + x[reg]`. -/
def execRjmpf (reg : Field) (s : State) : Result :=
  withReg reg s fun r => jumpTo s (s.pc + s.reg r)

/-- RJMPB (R145): `x[PC] <- x[PC] - x[reg]`. -/
def execRjmpb (reg : Field) (s : State) : Result :=
  withReg reg s fun r => jumpTo s (s.pc - s.reg r)

end Sys2Proof.Machine
end

