-- ==== Sys2Proof/Machine/Load.lean ====
section
/-! DEFINITION. The load-immediate family (41_load_immediate.md). -/

namespace Sys2Proof.Machine

/-- RLOAD (R120): `x[DR] <- zext_32(imm16)`, the whole register replaced. -/
def execRload (dr : Field) (imm : Imm) (s : State) : Result :=
  withReg dr s fun d => complete s [(d, zext32 imm)]

end Sys2Proof.Machine
end

