-- ==== Sys2Proof/Machine/Reserved.lean ====
section
/-! DEFINITION. The three reserved opcodes (46_reserved.md). -/

namespace Sys2Proof.Machine

/-- OP_NTHNG (R180): nothing, status `RESERVED_STATUS`. -/
def execOpNthng (s : State) : Result := reserve .opNthng s

/-- OP_CEASE (R181): nothing, no halt, status `RESERVED_STATUS`. -/
def execOpCease (s : State) : Result := reserve .opCease s

/-- OP_ILEGL (R182): nothing, status `RESERVED_STATUS`. -/
def execOpIlegl (s : State) : Result := reserve .opIlegl s

end Sys2Proof.Machine
end

