-- ==== Sys2Proof/Machine/Dispatch.lean ====
section
/-! DEFINITION. The dispatch multiplexer: exactly one transition unit acts per instruction (40_dispatch.md R103). -/

namespace Sys2Proof.Machine

def exec (i : Instr) (s : State) : Host.Outcome State Fault Refusal :=
  match i with
  | .opNthng => Sys2Proof.Machine.execOpNthng s
  | .opCease => Sys2Proof.Machine.execOpCease s
  | .opIlegl => Sys2Proof.Machine.execOpIlegl s
  | .rload dr imm => Sys2Proof.Machine.execRload dr imm s
  | .rradd r1 r2 dr => Sys2Proof.Machine.execRradd r1 r2 dr s
  | .rrsub r1 r2 dr => Sys2Proof.Machine.execRrsub r1 r2 dr s
  | .rrmux r1 r2 dr => Sys2Proof.Machine.execRrmux r1 r2 dr s
  | .rrdiv r1 r2 dr => Sys2Proof.Machine.execRrdiv r1 r2 dr s
  | .jumpa imm => Sys2Proof.Machine.execJumpa imm s
  | .jumpf imm => Sys2Proof.Machine.execJumpf imm s
  | .jumpb imm => Sys2Proof.Machine.execJumpb imm s
  | .rjmpa reg => Sys2Proof.Machine.execRjmpa reg s
  | .rjmpf reg => Sys2Proof.Machine.execRjmpf reg s
  | .rjmpb reg => Sys2Proof.Machine.execRjmpb reg s
  | .rreql r1 r2 => Sys2Proof.Machine.execRreql r1 r2 s
  | .rrnql r1 r2 => Sys2Proof.Machine.execRrnql r1 r2 s
  | .rrgte r1 r2 => Sys2Proof.Machine.execRrgte r1 r2 s
  | .rrlte r1 r2 => Sys2Proof.Machine.execRrlte r1 r2 s
  | .rrgtx r1 r2 => Sys2Proof.Machine.execRrgtx r1 r2 s
  | .rrltx r1 r2 => Sys2Proof.Machine.execRrltx r1 r2 s
  | .rrcmp r1 r2 => Sys2Proof.Machine.execRrcmp r1 r2 s
  | .rjmpq reg => Sys2Proof.Machine.execRjmpq reg s
  | .rjmpn reg => Sys2Proof.Machine.execRjmpn reg s
  | .jumpq imm => Sys2Proof.Machine.execJumpq imm s
  | .jumpn imm => Sys2Proof.Machine.execJumpn imm s

end Sys2Proof.Machine
end

