-- ==== Sys2Proof/Machine/Ports.lean ====
section
/-! DEFINITION. The CORE's interface to its driver (40_dispatch.md R100 to R102, R110, R112; 60_exceptions.md R191): a
presented word, one rising clock edge, and the output ports. -/

namespace Sys2Proof.Machine

/-- The CORE applied to one presented word: the `step` of R102, `decode` and then `execute`. A word whose opcode byte
names no operation returns `UnknownOpcode` (46_reserved.md R183). -/
def present (w : Word) (s : State) : Result :=
  match decode s.config w with
  | .ok i => exec i s
  | .error (.unknownOpcode b) => raise s (.unknownOpcode b)

/-- The reset input applied (70_reset_and_hazards.md R220): every register becomes 0, whatever it held. The
configuration is the machine's own, and what the driver has still to present or has been told is the driver's. -/
def State.applyReset (s : State) : State := { s with regs := RegFile.zero }

/-- One rising clock edge with the given input ports (R112): reset wins over a presented word; without either, the
register file holds. -/
def clockEdge (c : PortsIn) (s : State) : Result :=
  if c.rst then .next s.applyReset
  else if c.instrValid then present c.instrWord s
  else .next s

/-- The two-bit code of a status on the port `status_kind` (R191). -/
def Status.kind : Status → BitVec 2
  | .cont => 0
  | .unknownOpcode _ => 1
  | .divisionByZero => 2
  | .invalidRegister _ => 3

/-- The payload of a status on the port `status_info` (R112, R191). -/
def Status.info : Status → BitVec 8
  | .cont => 0
  | .unknownOpcode b => b
  | .divisionByZero => 0
  | .invalidRegister i => i

/-- The status a step hands back: the one it has appended. -/
def statusIn : Result → Option Status
  | .next t => t.statuses.getLast?
  | .fault _ => none
  | .refused _ => none

/-- The status presented in the coming cycle: there is one exactly when a word is presented and `rst` is low, and it is
the status of that word's step (R112). -/
def State.statusNow (s : State) : Option Status :=
  match s.inputs with
  | [] => none
  | c :: rest => if c.instrValid && !c.rst then statusIn (present c.instrWord { s with inputs := rest }) else none

/-- The output ports in one cycle (R112). -/
structure PortsOut where
  /-- `status_valid`: a status is presented. -/
  statusValid : Bool
  /-- `status_kind`; absent while no status is presented, where the spec states no value (log entry 15). -/
  statusKind : Option (BitVec 2)
  /-- `status_info`: the opcode byte for `UnknownOpcode`, the offending index for `InvalidRegister`, 0 otherwise. -/
  statusInfo : BitVec 8
  /-- `dbg_data`: the register the debug index names, or 0. -/
  dbgData : Word
  /-- `dbg_valid`: the debug index names a register. -/
  dbgValid : Bool
  /-- `pc_out`: the value of `R_PC`. -/
  pcOut : Word
deriving DecidableEq, Repr

/-- The driver's read of a register between steps (R110), through the debug port: the value before the coming edge, 0
for an index of 20 or more (R112). -/
def State.dbgData (s : State) (idx : Field) : Word :=
  match validReg idx with
  | some i => s.reg i
  | none => 0

/-- The output ports in the coming cycle, for a debug index (R112). Reading them changes nothing. -/
def State.portsOut (s : State) (dbgIdx : Field) : PortsOut where
  statusValid := s.statusNow.isSome
  statusKind := s.statusNow.map Status.kind
  statusInfo := (s.statusNow.map Status.info).getD 0
  dbgData := s.dbgData dbgIdx
  dbgValid := (validReg dbgIdx).isSome
  pcOut := s.pc

end Sys2Proof.Machine
end

