-- ==== Sys2Proof/Machine/Step.lean ====
section
/-! DEFINITION. One step of the machine. -/

namespace Sys2Proof.Machine

/-- One rising clock edge with the input ports the driver has set for it (40_dispatch.md R102, R112). When the driver
presents nothing more, the CORE is idle and holds its state (60_exceptions.md R210). -/
def step (s : State) : Host.Outcome State Fault Refusal :=
  match s.inputs with
  | [] => .next s
  | c :: rest => clockEdge c { s with inputs := rest }

/-- The driver presents one more word, to be taken by the very next step (R100): the CORE fetches nothing itself. -/
def State.withWord (s : State) (w : Word) : State := { s with inputs := PortsIn.word w :: s.inputs }

/-- The machine about to take the instruction of a row of spec/opcode_table.json. -/
def State.withFetchWord (s : State) (nbits w : Nat) : State := s.withWord (tableWord nbits w)

end Sys2Proof.Machine
end

