-- ==== Sys2Proof/Safety.lean ====
section
/-! DEFINITION. The terms the statements use: what it is for an instruction to complete, to fail, and to be encoded as
the spec says; which registers an instruction may write; and the value invariants of 10_state.md R33. -/

namespace Sys2Proof.Machine

/-- The register a field names. -/
def regOf (f : Field) (h : f.toNat < rCount) : RegIdx := ⟨f.toNat, h⟩

/-- `exec i s` answers a next state: the status `st` is handed back, register `j` then holds `after j` for every `j`,
and the driver's further inputs and the configuration are as before. -/
def RunsTo (i : Instr) (s : State) (st : Status) (after : RegIdx → Word) : Prop :=
  ∃ t, exec i s = .next t ∧ t.config = s.config ∧ t.inputs = s.inputs ∧ t.statuses = s.statuses ++ [st] ∧
    ∀ j, t.reg j = after j

/-- The instruction completes (status `Continue`) with the given registers after it. -/
def Completes (i : Instr) (s : State) (after : RegIdx → Word) : Prop := RunsTo i s .cont after

/-- The instruction fails with the error `e`: a next state in which every register keeps its value (60_exceptions.md
R194). -/
def FailsWith (i : Instr) (s : State) (e : Status) : Prop := RunsTo i s e s.reg

/-- `validate(r1)`: the error of an instruction `i` with one register field (40_dispatch.md R106). -/
def Validates1 (i : Instr) (s : State) (r1 : Field) : Prop :=
  rCount ≤ r1.toNat → FailsWith i s (.invalidRegister r1)

/-- `validate(r1, r2)` of 44_comparisons.md: the first field that names no register is reported. -/
def Validates2 (i : Instr) (s : State) (r1 r2 : Field) : Prop :=
  Validates1 i s r1 ∧ (r1.toNat < rCount → Validates1 i s r2)

/-- `validate(r1, r2, DR)` of 42_arithmetic.md. -/
def Validates3 (i : Instr) (s : State) (r1 r2 r3 : Field) : Prop :=
  Validates2 i s r1 r2 ∧ (r1.toNat < rCount → r2.toNat < rCount → Validates1 i s r3)

/-- The words of an opcode: its byte is `byte` under the default numbering, and under every admissible numbering the
word `OPC(op) ++ A ++ B ++ C` is the instruction `mk A B C`, whatever the three fields hold. -/
def Encodes (op : Opcode) (byte : Field) (mk : Field → Field → Field → Instr) : Prop :=
  Config.spec.opcOf op = byte ∧
    ∀ cfg : Config, cfg.Admissible → ∀ a b c : Field, decode cfg (cfg.opcOf op ++ a ++ b ++ c) = .ok (mk a b c)

/-- The bits of an instruction's word that it uses: all but its unused fields (30_encoding.md R73, R77). -/
def usedMask : Instr → Word
  | .opNthng | .opCease | .opIlegl => 0xFF000000
  | .rload _ _ => 0xFFFFFFFF
  | .rradd _ _ _ | .rrsub _ _ _ | .rrmux _ _ _ | .rrdiv _ _ _ => 0xFFFFFFFF
  | .jumpa _ | .jumpf _ | .jumpb _ | .jumpq _ | .jumpn _ => 0xFF00FFFF
  | .rjmpa _ | .rjmpf _ | .rjmpb _ | .rjmpq _ | .rjmpn _ => 0xFFFF0000
  | .rreql _ _ | .rrnql _ _ | .rrgte _ _ | .rrlte _ _ | .rrgtx _ _ | .rrltx _ _ | .rrcmp _ _ => 0xFFFFFF00

/-- The special register an instruction may write without naming it in a field (10_state.md R32). -/
def implicitDest (cfg : Config) : Instr → Option RegIdx
  | .opNthng | .opCease | .opIlegl => none
  | .rload _ _ | .rradd _ _ _ | .rrsub _ _ _ | .rrmux _ _ _ => none
  | .rrdiv _ _ _ => some cfg.idxRmdr
  | .jumpa _ | .jumpf _ | .jumpb _ | .rjmpa _ | .rjmpf _ | .rjmpb _ => some cfg.idxPc
  | .rreql _ _ | .rrnql _ _ | .rrgte _ _ | .rrlte _ _ | .rrgtx _ _ | .rrltx _ _ => some cfg.idxCond
  | .rrcmp _ _ => some cfg.idxComp
  | .rjmpq _ | .rjmpn _ | .jumpq _ | .jumpn _ => some cfg.idxPc

/-- Register `r` is one the instruction may write: named as DR, or written implicitly. -/
def MayWrite (cfg : Config) (i : Instr) (r : RegIdx) : Prop :=
  (∃ f, i.destField = some f ∧ f.toNat = r.val) ∨ implicitDest cfg i = some r

/-- In this cycle the driver presents an instruction whose DR is register `r`. -/
def NamesDest (cfg : Config) (r : RegIdx) (c : PortsIn) : Prop :=
  c.rst = false ∧ c.instrValid = true ∧
    ∃ i f, decode cfg c.instrWord = .ok i ∧ i.destField = some f ∧ f.toNat = r.val

/-- R33 for `R_COND`: it is 0 or 1, and no instruction still to come has DR = `R_COND`. -/
def CondInvariant (s : State) : Prop :=
  s.config.Admissible ∧ (s.cond = 0 ∨ s.cond = 1) ∧ ∀ c ∈ s.inputs, ¬ NamesDest s.config s.config.idxCond c

/-- R33 for `R_COMP`: it is 0, 1, 2 or 4, and no instruction still to come has DR = `R_COMP`. -/
def CompInvariant (s : State) : Prop :=
  s.config.Admissible ∧ (s.comp = 0 ∨ s.comp = 1 ∨ s.comp = 2 ∨ s.comp = 4) ∧
    ∀ c ∈ s.inputs, ¬ NamesDest s.config s.config.idxComp c

/-- R33 for `R_COMP` once a compare has completed: it is 1, 2 or 4, and no instruction still to come has DR = `R_COMP`,
nor does the driver reset the machine. -/
def CompWritten (s : State) : Prop :=
  s.config.Admissible ∧ (s.comp = 1 ∨ s.comp = 2 ∨ s.comp = 4) ∧
    ∀ c ∈ s.inputs, c.rst = false ∧ ¬ NamesDest s.config s.config.idxComp c

/-- The machine with the words `ws` presented one a cycle, and then whatever the driver had queued. -/
def State.withWords (s : State) (ws : List Word) : State := { s with inputs := ws.map PortsIn.word ++ s.inputs }

/-- A safe run of `n` steps: the machine never stops. -/
def RunsSafely (n : Nat) (s : State) : Prop := ∃ t, Host.Core.run core n s = .next t

end Sys2Proof.Machine
end

