-- ==== Sys2Proof/Certificates/Slice0/Obligations.lean ====
section
/-! DEFINITION. The statements about the Blue-VM CORE, listed in OBLIGATIONS.json. A statement about an instruction
says its encoding, its effect on every register and on the driver's side of the interface (`Completes`), and its
errors (`Validates1` to `Validates3`, `FailsWith`), which is all a state has. -/

open Sys2Proof Sys2Proof.Machine

/-! ### The decoder and the encoder -/

/-- R70, R71, R72: the decoder gives the five views of a word, by their weights; the word can be rebuilt from them, so
two words that decode alike are one; the immediate is B and C and never A. -/
def Obligations.DecoderSlicesTheWord : Prop :=
  (∀ w : Word,
    (decodeFields w).opcode.toNat = w.toNat / 2 ^ 24 ∧
    (decodeFields w).a.toNat = w.toNat / 2 ^ 16 % 2 ^ 8 ∧
    (decodeFields w).b.toNat = w.toNat / 2 ^ 8 % 2 ^ 8 ∧
    (decodeFields w).c.toNat = w.toNat % 2 ^ 8 ∧
    (decodeFields w).imm16 = (decodeFields w).b ++ (decodeFields w).c ∧
    (decodeFields w).imm16.toNat = w.toNat % 2 ^ 16 ∧
    w = (decodeFields w).opcode ++ (decodeFields w).a ++ (decodeFields w).b ++ (decodeFields w).c) ∧
  ∀ w w' : Word, decodeFields w = decodeFields w' → w = w'

/-- Every instruction, with every operand at every 8-bit or 16-bit value, decodes from its encoding, under every
admissible numbering. -/
def Obligations.DecodeOfEncodeIsTheInstruction : Prop :=
  ∀ cfg : Config, cfg.Admissible → ∀ i : Instr, decode cfg (encode cfg i) = .ok i

/-- The words of an instruction are exactly its canonical word with anything in the fields it does not use, under every
admissible numbering. That unused fields are ignored is the spec's decision D5 (30_encoding.md R77). -/
def Obligations.UnusedFieldsAreIgnoredAndNoOthers : Prop :=
  ∀ cfg : Config, cfg.Admissible → ∀ (i : Instr) (w : Word),
    decode cfg w = .ok i ↔ w &&& usedMask i = encode cfg i

/-- R79, R183: a byte is at most one name's; a word whose byte is a name's decodes to that opcode; a word whose byte is
no name's makes the step return `UnknownOpcode` with that byte, whatever the fields, and no register changes. Under the
default numbering the bytes without a name are 0x19 to 0xFF; 0xFF has none under any admissible one. -/
def Obligations.OpcodeByteSelectsTheOperation : Prop :=
  (∀ cfg : Config, cfg.Admissible →
    (∀ p q : Opcode, cfg.opcOf p = cfg.opcOf q → p = q) ∧
    (∀ p : Opcode, cfg.opcOf p ≠ 0xFF) ∧
    ∀ (w : Word) (op : Opcode), cfg.opcOf op = w.extractLsb' 24 8 → ∃ i, decode cfg w = .ok i ∧ i.opcode = op) ∧
  (∀ (s : State) (w : Word), (∀ op, s.config.opcOf op ≠ w.extractLsb' 24 8) →
    ∃ t, step (s.withWord w) = .next t ∧ t.config = s.config ∧ t.inputs = s.inputs ∧
      t.statuses = s.statuses ++ [.unknownOpcode (w.extractLsb' 24 8)] ∧ ∀ j, t.reg j = s.reg j) ∧
  ∀ b : Field, (∀ op, Config.spec.opcOf op ≠ b) ↔ 0x19 ≤ b.toNat

/-- One word of each family, written out from the encodings of 30_encoding.md R73 and R78 (the words of
95_test_vectors.md X2, S5b, S2a, J4, J17, C13, Q21, Q20), decodes to its instruction under the default numbering. -/
def Obligations.SampleWordsDecode : Prop :=
  decode Config.spec 0x00FFFFFF = .ok .opNthng ∧
  decode Config.spec 0x0307BEEF = .ok (.rload 7 0xBEEF) ∧
  decode Config.spec 0x07000102 = .ok (.rrdiv 0 1 2) ∧
  decode Config.spec 0x08AB1234 = .ok (.jumpa 0x1234) ∧
  decode Config.spec 0x0B03FFFF = .ok (.rjmpa 3) ∧
  decode Config.spec 0x130001FF = .ok (.rrltx 0 1) ∧
  decode Config.spec 0x1503C8C8 = .ok (.rjmpq 3) ∧
  decode Config.spec 0x17FF0008 = .ok (.jumpq 8)

/-- The spec's default parameters (the decisions D1, D2 of 92_eei_decisions.md) satisfy what 00_scope.md R6 asks of
every choice of them. -/
def Obligations.DefaultParametersAreAdmissible : Prop := Config.spec.Admissible

/-! ### The step -/

/-- A presented word that decodes is run by exactly one transition unit, that of its instruction, from the state with
the cycle taken off the driver's queue; nothing else is added around it (R102, R103). -/
def Obligations.StepRunsTheDecodedInstruction : Prop :=
  ∀ (s : State) (c : PortsIn) (rest : List PortsIn) (i : Instr),
    s.inputs = c :: rest → c.rst = false → c.instrValid = true → decode s.config c.instrWord = .ok i →
    step s = exec i { s with inputs := rest }

/-- A cycle with `rst` high zeroes every register, whatever it held and whatever word is presented, and returns no
status. The port is the spec's decision D15 (R112, R220). -/
def Obligations.ResetCycleZeroesEveryRegister : Prop :=
  ∀ (s : State) (c : PortsIn) (rest : List PortsIn), s.inputs = c :: rest → c.rst = true →
    ∃ t, step s = .next t ∧ t.config = s.config ∧ t.inputs = rest ∧ t.statuses = s.statuses ∧ ∀ j, t.reg j = 0

/-- A cycle in which no word is presented, and a driver with nothing more to present, hold the register file and return
no status (R112, R210; the idle step with an empty queue is the model's reading, log entry 13). -/
def Obligations.IdleCycleHoldsTheState : Prop :=
  (∀ (s : State) (c : PortsIn) (rest : List PortsIn), s.inputs = c :: rest → c.rst = false → c.instrValid = false →
    step s = .next { s with inputs := rest }) ∧
  ∀ s : State, s.inputs = [] → step s = .next s

/-- R38: after reset each of the 20 registers is 0, the four special ones at the indices of the rule's table among
them. -/
def Obligations.EveryRegisterIsZeroAfterReset : Prop :=
  (∀ j : RegIdx, State.reset.reg j = 0) ∧
  State.reset.config.idxPc.val = 16 ∧ State.reset.config.idxRmdr.val = 17 ∧
  State.reset.config.idxCond.val = 18 ∧ State.reset.config.idxComp.val = 19

/-- No status stops the machine and no opcode halts it: every run of any length, from every state, under every driver,
goes on (R109); and a word presented after a failed one runs from the register file as the failed one found it. That the
run also goes on past the driver's last word, where R111 says that it has ended, is the model's choice (log entry 13,
DESIGN CHOICE): with an empty queue the step is an idle cycle that holds the state, as R112 and R210 have it for a cycle
without a word. -/
def Obligations.NoStatusStopsTheMachine : Prop :=
  (∀ (n : Nat) (s : State), RunsSafely n s) ∧
  ∀ (s t : State) (w : Word) (e : Status), step (s.withWord w) = .next t → t.statuses = s.statuses ++ [e] →
    e ≠ .cont → t = { s with statuses := s.statuses ++ [e] }

/-- Every instruction, on every operand and in every state, answers a next state with one status; if that is an error,
no register has changed; and in every case a register that changed was named as DR or is the special register R32 lists
for the opcode (R24, R27, R32, R105). -/
def Obligations.OnlyNamedOrImplicitRegistersChange : Prop :=
  ∀ (i : Instr) (s : State), ∃ (st : Status) (t : State), exec i s = .next t ∧ t.config = s.config ∧
    t.inputs = s.inputs ∧ t.statuses = s.statuses ++ [st] ∧ (st ≠ .cont → t.regs = s.regs) ∧
    ∀ j, t.reg j ≠ s.reg j → MayWrite s.config i j

/-- A step takes the head of the driver's queue and alters nothing of what the driver will present, whatever it writes
to `R_PC` or elsewhere; and it never changes the configuration (R27, R61, R101). -/
def Obligations.NoStepChangesTheWordsToCome : Prop :=
  ∀ s t : State, step s = .next t → t.inputs = s.inputs.tail ∧ t.config = s.config

/-- One status per word, in order, and the words used up, for every list of words and every state (R111, R190). -/
def Obligations.OneStatusPerWord : Prop :=
  ∀ (ws : List Word) (s : State), ∃ t, Host.Core.run core ws.length (s.withWords ws) = .next t ∧
    t.inputs = s.inputs ∧ ∃ sts : List Status, sts.length = ws.length ∧ t.statuses = s.statuses ++ sts

/-- Any number of consecutive errors leave the register file as it was before the first (R193, R197). -/
def Obligations.ConsecutiveErrorsLeaveNoTrace : Prop :=
  ∀ (ws : List Word) (s t : State) (sts : List Status),
    Host.Core.run core ws.length (s.withWords ws) = .next t → t.statuses = s.statuses ++ sts →
    (∀ st ∈ sts, st ≠ .cont) → t.regs = s.regs

/-- `InvalidRegister` is returned exactly by the instructions with a register field of 20 or more, with the first such
field in the order A, B, C, whatever any register holds; no register changes. The order and the payload are the spec's
decisions D7, D8, D12 (R106, R107, R108). -/
def Obligations.InvalidRegisterExactlyWhenIllFormed : Prop :=
  ∀ (i : Instr) (s : State),
    (∀ f, i.regFields.find? (fun g => decide (rCount ≤ g.toNat)) = some f → FailsWith i s (.invalidRegister f)) ∧
    (i.WellFormed → ∀ (t : State) (f : Field), exec i s = .next t →
      t.statuses ≠ s.statuses ++ [.invalidRegister f])

/-! ### The value invariants of R33 -/

/-- R33: while no instruction names `R_COND` as DR, every step keeps it 0 or 1. -/
def Obligations.CondStaysAFlag : Prop :=
  ∀ s t : State, CondInvariant s → step s = .next t → CondInvariant t

/-- R33: while no instruction names `R_COMP` as DR, every step keeps it 0, 1, 2 or 4. -/
def Obligations.CompStaysACode : Prop :=
  ∀ s t : State, CompInvariant s → step s = .next t → CompInvariant t

/-- R33: a completed RRCMP leaves `R_COMP` 1, 2 or 4, and while no instruction names it as DR and the driver does not
reset the machine, every step keeps it so. -/
def Obligations.CompIsACodeAfterACompare : Prop :=
  (∀ s t : State, CompWritten s → step s = .next t → CompWritten t) ∧
  ∀ (s t : State) (r1 r2 : Field), exec (.rrcmp r1 r2) s = .next t → t.statuses = s.statuses ++ [.cont] →
    t.comp = 1 ∨ t.comp = 2 ∨ t.comp = 4

/-- The reset state satisfies both invariants of R33: its configuration is admissible, `R_COND` is 0 or 1, `R_COMP` is 0,
1, 2 or 4, and no cycle queued names either of them as DR. That both are 0 after reset is `EveryRegisterIsZeroAfterReset`. -/
def Obligations.ResetSatisfiesTheInvariants : Prop := CondInvariant State.reset ∧ CompInvariant State.reset

/-! ### The instructions -/

/-- OP_NTHNG, OP_CEASE, OP_ILEGL: no register changes and the machine goes on; the status is `RESERVED_STATUS`, by
default `Continue` (the spec's decision D11; R180, R181, R182). -/
def Obligations.ReservedOpcodesDoNothing : Prop :=
  Encodes .opNthng 0x00 (fun _ _ _ => .opNthng) ∧ Encodes .opCease 0x01 (fun _ _ _ => .opCease) ∧
  Encodes .opIlegl 0x02 (fun _ _ _ => .opIlegl) ∧
  ∀ s : State,
    (s.config.reservedStatus = .continues →
      Completes .opNthng s s.reg ∧ Completes .opCease s s.reg ∧ Completes .opIlegl s s.reg) ∧
    (s.config.reservedStatus = .unknownOpcode →
      FailsWith .opNthng s (.unknownOpcode (s.config.opcOf .opNthng)) ∧
      FailsWith .opCease s (.unknownOpcode (s.config.opcOf .opCease)) ∧
      FailsWith .opIlegl s (.unknownOpcode (s.config.opcOf .opIlegl)))

/-- R120: the whole of DR becomes the zero-extended immediate. -/
def Obligations.RloadLoadsTheImmediate : Prop :=
  Encodes .rload 0x03 (fun a b c => .rload a (b ++ c)) ∧
  ∀ (s : State) (dr : Field) (imm : Imm),
    Validates1 (.rload dr imm) s dr ∧
    ∀ h : dr.toNat < rCount,
      Completes (.rload dr imm) s fun j => if j = regOf dr h then BitVec.ofNat 32 imm.toNat else s.reg j

/-- R125: DR becomes the sum modulo 2^32 of the two sources' old values. -/
def Obligations.RraddAdds : Prop :=
  Encodes .rradd 0x04 (fun a b c => .rradd a b c) ∧
  ∀ (s : State) (r1 r2 dr : Field),
    Validates3 (.rradd r1 r2 dr) s r1 r2 dr ∧
    ∀ (h1 : r1.toNat < rCount) (h2 : r2.toNat < rCount) (hd : dr.toNat < rCount),
      Completes (.rradd r1 r2 dr) s fun j =>
        if j = regOf dr hd then
          BitVec.ofNat 32 (((s.reg (regOf r1 h1)).toNat + (s.reg (regOf r2 h2)).toNat) % 2 ^ 32)
        else s.reg j

/-- R126: DR becomes the difference modulo 2^32 of the two sources' old values, `r1` the minuend. -/
def Obligations.RrsubSubtracts : Prop :=
  Encodes .rrsub 0x05 (fun a b c => .rrsub a b c) ∧
  ∀ (s : State) (r1 r2 dr : Field),
    Validates3 (.rrsub r1 r2 dr) s r1 r2 dr ∧
    ∀ (h1 : r1.toNat < rCount) (h2 : r2.toNat < rCount) (hd : dr.toNat < rCount),
      Completes (.rrsub r1 r2 dr) s fun j =>
        if j = regOf dr hd then
          BitVec.ofNat 32 (((s.reg (regOf r1 h1)).toNat + 2 ^ 32 - (s.reg (regOf r2 h2)).toNat) % 2 ^ 32)
        else s.reg j

/-- R127: DR becomes the product modulo 2^32 of the two sources' old values; the high half goes nowhere. -/
def Obligations.RrmuxMultiplies : Prop :=
  Encodes .rrmux 0x06 (fun a b c => .rrmux a b c) ∧
  ∀ (s : State) (r1 r2 dr : Field),
    Validates3 (.rrmux r1 r2 dr) s r1 r2 dr ∧
    ∀ (h1 : r1.toNat < rCount) (h2 : r2.toNat < rCount) (hd : dr.toNat < rCount),
      Completes (.rrmux r1 r2 dr) s fun j =>
        if j = regOf dr hd then
          BitVec.ofNat 32 ((s.reg (regOf r1 h1)).toNat * (s.reg (regOf r2 h2)).toNat % 2 ^ 32)
        else s.reg j

/-- R128: `DivisionByZero` on a zero divisor, after the three fields are validated; else the unsigned quotient to DR and
the remainder to `R_RMDR`, both of the old values; when DR is `R_RMDR` the remainder is what it holds, under the default
`DIV_COLLISION`. -/
def Obligations.RrdivDivides : Prop :=
  Encodes .rrdiv 0x07 (fun a b c => .rrdiv a b c) ∧
  ∀ (s : State) (r1 r2 dr : Field),
    Validates3 (.rrdiv r1 r2 dr) s r1 r2 dr ∧
    ∀ (h1 : r1.toNat < rCount) (h2 : r2.toNat < rCount) (hd : dr.toNat < rCount),
      (s.reg (regOf r2 h2) = 0 → FailsWith (.rrdiv r1 r2 dr) s .divisionByZero) ∧
      (s.reg (regOf r2 h2) ≠ 0 → regOf dr hd ≠ s.config.idxRmdr →
        Completes (.rrdiv r1 r2 dr) s fun j =>
          if j = s.config.idxRmdr then
            BitVec.ofNat 32 ((s.reg (regOf r1 h1)).toNat % (s.reg (regOf r2 h2)).toNat)
          else if j = regOf dr hd then
            BitVec.ofNat 32 ((s.reg (regOf r1 h1)).toNat / (s.reg (regOf r2 h2)).toNat)
          else s.reg j) ∧
      (s.reg (regOf r2 h2) ≠ 0 → regOf dr hd = s.config.idxRmdr → s.config.divCollision = .remainder →
        Completes (.rrdiv r1 r2 dr) s fun j =>
          if j = s.config.idxRmdr then
            BitVec.ofNat 32 ((s.reg (regOf r1 h1)).toNat % (s.reg (regOf r2 h2)).toNat)
          else s.reg j)

/-- The other value of `DIV_COLLISION`, which the model takes as a parameter (R131, the spec's decision D10): when DR
is `R_RMDR` the quotient survives. -/
def Obligations.RrdivCollisionCanKeepTheQuotient : Prop :=
  ∀ (s : State) (r1 r2 dr : Field) (h1 : r1.toNat < rCount) (h2 : r2.toNat < rCount) (hd : dr.toNat < rCount),
    s.reg (regOf r2 h2) ≠ 0 → regOf dr hd = s.config.idxRmdr → s.config.divCollision = .quotient →
    Completes (.rrdiv r1 r2 dr) s fun j =>
      if j = s.config.idxRmdr then
        BitVec.ofNat 32 ((s.reg (regOf r1 h1)).toNat / (s.reg (regOf r2 h2)).toNat)
      else s.reg j

/-- R130: after a successful RRDIV to a register other than `R_RMDR`, the dividend is quotient times divisor plus
remainder, over the integers, and the remainder is below the divisor; dividend and divisor are the old values. The bound
is the spec's general knowledge G1. -/
def Obligations.DivisionLaw : Prop :=
  ∀ (s t : State) (r1 r2 dr : Field) (h1 : r1.toNat < rCount) (h2 : r2.toNat < rCount) (hd : dr.toNat < rCount),
    regOf dr hd ≠ s.config.idxRmdr → exec (.rrdiv r1 r2 dr) s = .next t → t.statuses = s.statuses ++ [.cont] →
    (s.reg (regOf r1 h1)).toNat =
      (t.reg (regOf dr hd)).toNat * (s.reg (regOf r2 h2)).toNat + (t.reg t.config.idxRmdr).toNat ∧
    (t.reg t.config.idxRmdr).toNat < (s.reg (regOf r2 h2)).toNat

/-- R132: `RRADD(a, b, a)` and then `RRSUB(a, b, a)` with `a` not `b` restore every register, across a wrap too. -/
def Obligations.AddThenSubtractRestores : Prop :=
  ∀ (s : State) (a b : Field), a.toNat < rCount → b.toNat < rCount → a ≠ b →
    ∃ t u, exec (.rradd a b a) s = .next t ∧ exec (.rrsub a b a) t = .next u ∧
      u.statuses = s.statuses ++ [.cont, .cont] ∧ u.regs = s.regs

/-- R140: `R_PC` becomes the zero-extended immediate, whatever it held. -/
def Obligations.JumpaSetsPc : Prop :=
  Encodes .jumpa 0x08 (fun _ b c => .jumpa (b ++ c)) ∧
  ∀ (s : State) (imm : Imm),
    Completes (.jumpa imm) s fun j => if j = s.config.idxPc then BitVec.ofNat 32 imm.toNat else s.reg j

/-- R141: the zero-extended immediate is added to `R_PC`, modulo 2^32. -/
def Obligations.JumpfAdvancesPc : Prop :=
  Encodes .jumpf 0x09 (fun _ b c => .jumpf (b ++ c)) ∧
  ∀ (s : State) (imm : Imm),
    Completes (.jumpf imm) s fun j =>
      if j = s.config.idxPc then BitVec.ofNat 32 ((s.pc.toNat + imm.toNat) % 2 ^ 32) else s.reg j

/-- R142: the zero-extended immediate is subtracted from `R_PC`, modulo 2^32; a JUMPF and a JUMPB by the same offset
undo each other, in either order, across a wrap too. -/
def Obligations.JumpbMovesPcBack : Prop :=
  Encodes .jumpb 0x0A (fun _ b c => .jumpb (b ++ c)) ∧
  (∀ (s : State) (imm : Imm),
    Completes (.jumpb imm) s fun j =>
      if j = s.config.idxPc then BitVec.ofNat 32 ((s.pc.toNat + 2 ^ 32 - imm.toNat) % 2 ^ 32) else s.reg j) ∧
  ∀ (s : State) (imm : Imm),
    (∃ t u, exec (.jumpf imm) s = .next t ∧ exec (.jumpb imm) t = .next u ∧ u.regs = s.regs) ∧
    ∃ t u, exec (.jumpb imm) s = .next t ∧ exec (.jumpf imm) t = .next u ∧ u.regs = s.regs

/-- R143: `R_PC` becomes the register's whole value, and no other jump's effect is added. -/
def Obligations.RjmpaSetsPcFromARegister : Prop :=
  Encodes .rjmpa 0x0B (fun a _ _ => .rjmpa a) ∧
  ∀ (s : State) (reg : Field),
    Validates1 (.rjmpa reg) s reg ∧
    ∀ h : reg.toNat < rCount,
      Completes (.rjmpa reg) s fun j => if j = s.config.idxPc then s.reg (regOf reg h) else s.reg j

/-- R144: the register's value is added to `R_PC`, modulo 2^32. -/
def Obligations.RjmpfAdvancesPcByARegister : Prop :=
  Encodes .rjmpf 0x0C (fun a _ _ => .rjmpf a) ∧
  ∀ (s : State) (reg : Field),
    Validates1 (.rjmpf reg) s reg ∧
    ∀ h : reg.toNat < rCount,
      Completes (.rjmpf reg) s fun j =>
        if j = s.config.idxPc then BitVec.ofNat 32 ((s.pc.toNat + (s.reg (regOf reg h)).toNat) % 2 ^ 32) else s.reg j

/-- R145: the register's value is subtracted from `R_PC`, modulo 2^32. -/
def Obligations.RjmpbMovesPcBackByARegister : Prop :=
  Encodes .rjmpb 0x0D (fun a _ _ => .rjmpb a) ∧
  ∀ (s : State) (reg : Field),
    Validates1 (.rjmpb reg) s reg ∧
    ∀ h : reg.toNat < rCount,
      Completes (.rjmpb reg) s fun j =>
        if j = s.config.idxPc then BitVec.ofNat 32 ((s.pc.toNat + 2 ^ 32 - (s.reg (regOf reg h)).toNat) % 2 ^ 32)
        else s.reg j

/-- R156: `R_COND` becomes 1 if the two registers are equal, else 0, all 32 bits of it. -/
def Obligations.RreqlComparesEqual : Prop :=
  Encodes .rreql 0x0E (fun a b _ => .rreql a b) ∧
  ∀ (s : State) (r1 r2 : Field),
    Validates2 (.rreql r1 r2) s r1 r2 ∧
    ∀ (h1 : r1.toNat < rCount) (h2 : r2.toNat < rCount),
      Completes (.rreql r1 r2) s fun j =>
        if j = s.config.idxCond then
          if (s.reg (regOf r1 h1)).toNat = (s.reg (regOf r2 h2)).toNat then 1 else 0
        else s.reg j

/-- R157: `R_COND` becomes 1 if the two registers differ, else 0. -/
def Obligations.RrnqlComparesNotEqual : Prop :=
  Encodes .rrnql 0x0F (fun a b _ => .rrnql a b) ∧
  ∀ (s : State) (r1 r2 : Field),
    Validates2 (.rrnql r1 r2) s r1 r2 ∧
    ∀ (h1 : r1.toNat < rCount) (h2 : r2.toNat < rCount),
      Completes (.rrnql r1 r2) s fun j =>
        if j = s.config.idxCond then
          if (s.reg (regOf r1 h1)).toNat ≠ (s.reg (regOf r2 h2)).toNat then 1 else 0
        else s.reg j

/-- R158: `R_COND` becomes 1 if the first register is at least the second, unsigned, else 0. -/
def Obligations.RrgteComparesGreaterOrEqual : Prop :=
  Encodes .rrgte 0x10 (fun a b _ => .rrgte a b) ∧
  ∀ (s : State) (r1 r2 : Field),
    Validates2 (.rrgte r1 r2) s r1 r2 ∧
    ∀ (h1 : r1.toNat < rCount) (h2 : r2.toNat < rCount),
      Completes (.rrgte r1 r2) s fun j =>
        if j = s.config.idxCond then
          if (s.reg (regOf r2 h2)).toNat ≤ (s.reg (regOf r1 h1)).toNat then 1 else 0
        else s.reg j

/-- R159: `R_COND` becomes 1 if the first register is at most the second, unsigned, else 0. -/
def Obligations.RrlteComparesLessOrEqual : Prop :=
  Encodes .rrlte 0x11 (fun a b _ => .rrlte a b) ∧
  ∀ (s : State) (r1 r2 : Field),
    Validates2 (.rrlte r1 r2) s r1 r2 ∧
    ∀ (h1 : r1.toNat < rCount) (h2 : r2.toNat < rCount),
      Completes (.rrlte r1 r2) s fun j =>
        if j = s.config.idxCond then
          if (s.reg (regOf r1 h1)).toNat ≤ (s.reg (regOf r2 h2)).toNat then 1 else 0
        else s.reg j

/-- R160: `R_COND` becomes 1 if the first register is above the second, unsigned, else 0. -/
def Obligations.RrgtxComparesGreater : Prop :=
  Encodes .rrgtx 0x12 (fun a b _ => .rrgtx a b) ∧
  ∀ (s : State) (r1 r2 : Field),
    Validates2 (.rrgtx r1 r2) s r1 r2 ∧
    ∀ (h1 : r1.toNat < rCount) (h2 : r2.toNat < rCount),
      Completes (.rrgtx r1 r2) s fun j =>
        if j = s.config.idxCond then
          if (s.reg (regOf r2 h2)).toNat < (s.reg (regOf r1 h1)).toNat then 1 else 0
        else s.reg j

/-- R161: `R_COND` becomes 1 if the first register is below the second, unsigned, else 0. -/
def Obligations.RrltxComparesLess : Prop :=
  Encodes .rrltx 0x13 (fun a b _ => .rrltx a b) ∧
  ∀ (s : State) (r1 r2 : Field),
    Validates2 (.rrltx r1 r2) s r1 r2 ∧
    ∀ (h1 : r1.toNat < rCount) (h2 : r2.toNat < rCount),
      Completes (.rrltx r1 r2) s fun j =>
        if j = s.config.idxCond then
          if (s.reg (regOf r1 h1)).toNat < (s.reg (regOf r2 h2)).toNat then 1 else 0
        else s.reg j

/-- R162: `R_COMP` becomes 2, 1 or 4 as the first register is equal to, above or below the second, unsigned; `R_COND`
and every other register keep their values. -/
def Obligations.RrcmpComparesThreeWays : Prop :=
  Encodes .rrcmp 0x14 (fun a b _ => .rrcmp a b) ∧
  ∀ (s : State) (r1 r2 : Field),
    Validates2 (.rrcmp r1 r2) s r1 r2 ∧
    ∀ (h1 : r1.toNat < rCount) (h2 : r2.toNat < rCount),
      Completes (.rrcmp r1 r2) s fun j =>
        if j = s.config.idxComp then
          if (s.reg (regOf r1 h1)).toNat = (s.reg (regOf r2 h2)).toNat then 2
          else if (s.reg (regOf r2 h2)).toNat < (s.reg (regOf r1 h1)).toNat then 1 else 4
        else s.reg j

/-- R170: with `R_COND` not 0, `R_PC` becomes the register's value; with `R_COND` 0, no register changes; `Continue`
either way. -/
def Obligations.RjmpqJumpsWhenTheFlagIsSet : Prop :=
  Encodes .rjmpq 0x15 (fun a _ _ => .rjmpq a) ∧
  ∀ (s : State) (reg : Field),
    Validates1 (.rjmpq reg) s reg ∧
    ∀ h : reg.toNat < rCount,
      Completes (.rjmpq reg) s fun j =>
        if j = s.config.idxPc ∧ s.cond ≠ 0 then s.reg (regOf reg h) else s.reg j

/-- R171: with `R_COND` 0, `R_PC` becomes the register's value; otherwise no register changes; `Continue` either
way. -/
def Obligations.RjmpnJumpsWhenTheFlagIsClear : Prop :=
  Encodes .rjmpn 0x16 (fun a _ _ => .rjmpn a) ∧
  ∀ (s : State) (reg : Field),
    Validates1 (.rjmpn reg) s reg ∧
    ∀ h : reg.toNat < rCount,
      Completes (.rjmpn reg) s fun j =>
        if j = s.config.idxPc ∧ s.cond = 0 then s.reg (regOf reg h) else s.reg j

/-- R172: with `R_COND` not 0, the zero-extended immediate is added to `R_PC`, modulo 2^32; with `R_COND` 0, no register
changes; `Continue` either way. -/
def Obligations.JumpqAdvancesWhenTheFlagIsSet : Prop :=
  Encodes .jumpq 0x17 (fun _ b c => .jumpq (b ++ c)) ∧
  ∀ (s : State) (imm : Imm),
    Completes (.jumpq imm) s fun j =>
      if j = s.config.idxPc ∧ s.cond ≠ 0 then BitVec.ofNat 32 ((s.pc.toNat + imm.toNat) % 2 ^ 32) else s.reg j

/-- R173: with `R_COND` 0, the zero-extended immediate is added to `R_PC`, modulo 2^32; otherwise no register changes;
`Continue` either way. -/
def Obligations.JumpnAdvancesWhenTheFlagIsClear : Prop :=
  Encodes .jumpn 0x18 (fun _ b c => .jumpn (b ++ c)) ∧
  ∀ (s : State) (imm : Imm),
    Completes (.jumpn imm) s fun j =>
      if j = s.config.idxPc ∧ s.cond = 0 then BitVec.ofNat 32 ((s.pc.toNat + imm.toNat) % 2 ^ 32) else s.reg j

/-- R174: the Q forms are taken when the whole of `R_COND` is not 0, the N forms when it is 0, so in every state exactly
one form of each pair is taken; the flag survives a conditional jump; and none reads `R_COMP`: with another value there,
the same status and the same registers result but for `R_COMP` itself. -/
def Obligations.ConditionalJumpsTestTheWholeFlag : Prop :=
  (∀ (s : State) (reg : Field) (h : reg.toNat < rCount),
    ∃ t u, exec (.rjmpq reg) s = .next t ∧ exec (.rjmpn reg) s = .next u ∧
      (s.cond ≠ 0 → t.pc = s.reg (regOf reg h) ∧ u.regs = s.regs) ∧
      (s.cond = 0 → t.regs = s.regs ∧ u.pc = s.reg (regOf reg h))) ∧
  (∀ (s : State) (imm : Imm),
    ∃ t u, exec (.jumpq imm) s = .next t ∧ exec (.jumpn imm) s = .next u ∧
      (s.cond ≠ 0 → t.pc.toNat = (s.pc.toNat + imm.toNat) % 2 ^ 32 ∧ u.regs = s.regs) ∧
      (s.cond = 0 → t.regs = s.regs ∧ u.pc.toNat = (s.pc.toNat + imm.toNat) % 2 ^ 32)) ∧
  ∀ (i : Instr) (s : State) (v : Word), s.config.Admissible →
    i.opcode ∈ [Opcode.rjmpq, .rjmpn, .jumpq, .jumpn] → s.config.idxComp.val ∉ i.regFields.map BitVec.toNat →
    ∃ t u, exec i s = .next t ∧ exec i { s with regs := s.regs.write s.config.idxComp v } = .next u ∧
      t.cond = s.cond ∧ u.cond = s.cond ∧ u.statuses = t.statuses ∧ u.regs = t.regs.write s.config.idxComp v

/-! ### The ports -/

/-- The status port codes (R112, R191; the spec's decision D12): a presented word's status is on the port in its own
cycle, as 0, 1, 2 or 3 with the payload 0, the opcode byte, 0 or the offending index; in a reset or idle cycle
`status_valid` is low and `status_info` is 0. -/
def Obligations.StatusPortShowsTheStepsStatus : Prop :=
  ∀ (s t : State) (c : PortsIn) (rest : List PortsIn) (idx : Field) (st : Status), s.inputs = c :: rest →
    ((s.portsOut idx).statusValid = true ↔ c.instrValid = true ∧ c.rst = false) ∧
    (c.instrValid = true → c.rst = false → step s = .next t → t.statuses = s.statuses ++ [st] →
      (s.portsOut idx).statusKind = some (match st with
        | .cont => 0 | .unknownOpcode _ => 1 | .divisionByZero => 2 | .invalidRegister _ => 3) ∧
      (s.portsOut idx).statusInfo = match st with
        | .cont => 0 | .unknownOpcode b => b | .divisionByZero => 0 | .invalidRegister i => i) ∧
    (c.instrValid = false ∨ c.rst = true → (s.portsOut idx).statusInfo = 0)

/-- The debug port and `pc_out` (R110, R112; the spec's decisions D14, D18): the register of the debug index before the
coming edge, 0 and not valid for an index of 20 or more, and the program counter. -/
def Obligations.DebugPortReadsTheRegisters : Prop :=
  ∀ (s : State) (idx : Field),
    (∀ h : idx.toNat < rCount,
      (s.portsOut idx).dbgData = s.reg (regOf idx h) ∧ (s.portsOut idx).dbgValid = true) ∧
    (rCount ≤ idx.toNat → (s.portsOut idx).dbgData = 0 ∧ (s.portsOut idx).dbgValid = false) ∧
    (s.portsOut idx).pcOut = s.reg s.config.idxPc
end

