-- ==== Sys2Proof/Laws/Decode.lean ====
section
/-! SUPPORT. The decoder's slices of a word, and the opcode map under an admissible numbering. -/

namespace Sys2Proof

variable (o a b c : Field)

/-- The encoder's formula of R75: the four fields by their weights. -/
theorem wordOf_toNat :
    (wordOf o a b c).toNat = o.toNat * 2 ^ 24 + a.toNat * 2 ^ 16 + b.toNat * 2 ^ 8 + c.toNat := by
  have ha := a.isLt
  have hb := b.isLt
  have hc := c.isLt
  simp only [wordOf, BitVec.toNat_append]
  rw [← Nat.shiftLeft_add_eq_or_of_lt ha, ← Nat.shiftLeft_add_eq_or_of_lt hb, ← Nat.shiftLeft_add_eq_or_of_lt hc]
  simp only [Nat.shiftLeft_eq]
  omega

theorem appendField_toNat : (b ++ c : Imm).toNat = b.toNat * 2 ^ 8 + c.toNat := by
  rw [BitVec.toNat_append, ← Nat.shiftLeft_add_eq_or_of_lt c.isLt, Nat.shiftLeft_eq]

/-! The slices of R71 as arithmetic. -/

variable (w : Word)

theorem decodeFields_opcode_toNat : (decodeFields w).opcode.toNat = w.toNat / 2 ^ 24 := by
  have := w.isLt
  simp only [decodeFields, BitVec.extractLsb'_toNat, Nat.shiftRight_eq_div_pow]
  omega

theorem decodeFields_a_toNat : (decodeFields w).a.toNat = w.toNat / 2 ^ 16 % 2 ^ 8 := by
  simp only [decodeFields, BitVec.extractLsb'_toNat, Nat.shiftRight_eq_div_pow]

theorem decodeFields_b_toNat : (decodeFields w).b.toNat = w.toNat / 2 ^ 8 % 2 ^ 8 := by
  simp only [decodeFields, BitVec.extractLsb'_toNat, Nat.shiftRight_eq_div_pow]

theorem decodeFields_c_toNat : (decodeFields w).c.toNat = w.toNat % 2 ^ 8 := by
  simp only [decodeFields, BitVec.extractLsb'_toNat, Nat.shiftRight_eq_div_pow, pow_zero, Nat.div_one]

theorem decodeFields_imm16_toNat : (decodeFields w).imm16.toNat = w.toNat % 2 ^ 16 := by
  simp only [decodeFields, BitVec.extractLsb'_toNat, Nat.shiftRight_eq_div_pow, pow_zero, Nat.div_one]

/-! The slices of a word put together from four fields (R70). -/

@[simp] theorem decodeFields_wordOf_opcode : (decodeFields (wordOf o a b c)).opcode = o := by
  apply BitVec.eq_of_toNat_eq
  rw [decodeFields_opcode_toNat, wordOf_toNat]
  omega

@[simp] theorem decodeFields_wordOf_a : (decodeFields (wordOf o a b c)).a = a := by
  apply BitVec.eq_of_toNat_eq
  rw [decodeFields_a_toNat, wordOf_toNat]
  omega

@[simp] theorem decodeFields_wordOf_b : (decodeFields (wordOf o a b c)).b = b := by
  apply BitVec.eq_of_toNat_eq
  rw [decodeFields_b_toNat, wordOf_toNat]
  omega

@[simp] theorem decodeFields_wordOf_c : (decodeFields (wordOf o a b c)).c = c := by
  apply BitVec.eq_of_toNat_eq
  rw [decodeFields_c_toNat, wordOf_toNat]
  omega

@[simp] theorem decodeFields_wordOf_imm16 : (decodeFields (wordOf o a b c)).imm16 = b ++ c := by
  apply BitVec.eq_of_toNat_eq
  rw [decodeFields_imm16_toNat, wordOf_toNat, appendField_toNat]
  omega

/-- The two bytes of an immediate, put together again (R72). -/
@[simp] theorem immHi_append_immLo (imm : Imm) : immHi imm ++ immLo imm = imm := by
  have := imm.isLt
  apply BitVec.eq_of_toNat_eq
  rw [appendField_toNat]
  simp only [immHi, immLo, BitVec.extractLsb'_toNat, Nat.shiftRight_eq_div_pow]
  omega

theorem Opcode.index_injective {p q : Opcode} (h : p.index = q.index) : p = q := by
  cases p <;> cases q <;> first | rfl | exact absurd h (by decide)

theorem Opcode.mem_all (op : Opcode) : op ∈ Opcode.all := by cases op <;> decide

/-- An admissible numbering is injective (R78). -/
theorem Config.opcOf_injective {cfg : Config} (h : cfg.Admissible) {p q : Opcode} (e : cfg.opcOf p = cfg.opcOf q) :
    p = q := by
  apply Opcode.index_injective
  apply Fin.ext
  have hn := h.1
  exact (List.Nodup.getElem_inj_iff hn (hi := by simp) (hj := by simp)).mp (by simpa [Config.opcOf] using e)

/-- Under an admissible numbering, the name found for a byte is the one that has it (R79). -/
theorem Config.opcodeOf_eq_some_iff {cfg : Config} (h : cfg.Admissible) (byte : Field) (op : Opcode) :
    cfg.opcodeOf byte = some op ↔ cfg.opcOf op = byte := by
  constructor
  · intro e
    simpa using List.find?_some e
  · intro e
    cases hf : cfg.opcodeOf byte with
    | none =>
      have := List.find?_eq_none.mp hf op op.mem_all
      simp [e] at this
    | some p =>
      have hp : cfg.opcOf p = byte := by simpa using List.find?_some hf
      rw [Config.opcOf_injective h (hp.trans e.symm)]

/-- A byte has no name exactly when it is no name's (R79). -/
theorem Config.opcodeOf_eq_none_iff (cfg : Config) (byte : Field) :
    cfg.opcodeOf byte = none ↔ ∀ op, cfg.opcOf op ≠ byte := by
  unfold Config.opcodeOf
  rw [List.find?_eq_none]
  constructor
  · intro h op
    simpa using h op op.mem_all
  · intro h op _
    simpa using h op

end Sys2Proof
end

