-- ==== Sys2Proof/Laws/State.lean ====
section
/-! SUPPORT. One lemma per field per update of `State`, so that no proof unfolds a record update. -/

namespace Sys2Proof.Machine

variable (s : State) (st : Status) (x : RegFile) (is : List PortsIn)

@[simp] theorem report_config : (s.report st).config = s.config := rfl
@[simp] theorem report_regs : (s.report st).regs = s.regs := rfl
@[simp] theorem report_inputs : (s.report st).inputs = s.inputs := rfl
@[simp] theorem report_statuses : (s.report st).statuses = s.statuses ++ [st] := rfl
@[simp] theorem report_reg (j : RegIdx) : (s.report st).reg j = s.reg j := rfl

@[simp] theorem setRegs_reg (j : RegIdx) : State.reg { s with regs := x } j = x.read j := rfl
@[simp] theorem setInputs_reg (j : RegIdx) : State.reg { s with inputs := is } j = s.reg j := rfl
@[simp] theorem setInputs_pc : State.pc { s with inputs := is } = s.pc := rfl
@[simp] theorem setInputs_cond : State.cond { s with inputs := is } = s.cond := rfl
@[simp] theorem setInputs_comp : State.comp { s with inputs := is } = s.comp := rfl

@[simp] theorem applyReset_config : s.applyReset.config = s.config := rfl
@[simp] theorem applyReset_regs : s.applyReset.regs = RegFile.zero := rfl
@[simp] theorem applyReset_inputs : s.applyReset.inputs = s.inputs := rfl
@[simp] theorem applyReset_statuses : s.applyReset.statuses = s.statuses := rfl

end Sys2Proof.Machine
end

