-- ==== Sys2Proof/Laws/Ops.lean ====
section
/-! SUPPORT. What each shared operation can do, said once; proofs cite these instead of unfolding the operations. -/

namespace Sys2Proof.Machine

/-! ### The register file -/

theorem read_write (x : RegFile) (i j : RegIdx) (v : Word) :
    (x.write i v).read j = if j = i then v else x.read j := by
  unfold RegFile.write RegFile.read
  by_cases h : j = i
  · subst h; simp
  · have h' : i.val ≠ j.val := fun e => h (Fin.ext e.symm)
    simp [h, h']

@[simp] theorem read_write_same (x : RegFile) (i : RegIdx) (v : Word) : (x.write i v).read i = v := by
  simp [read_write]

theorem read_write_other (x : RegFile) {i j : RegIdx} (v : Word) (h : j ≠ i) : (x.write i v).read j = x.read j := by
  simp [read_write, h]

@[simp] theorem writeAll_nil (x : RegFile) : x.writeAll [] = x := rfl

@[simp] theorem writeAll_cons (x : RegFile) (i : RegIdx) (v : Word) (ws : List (RegIdx × Word)) :
    x.writeAll ((i, v) :: ws) = (x.write i v).writeAll ws := rfl

/-- A register no write names keeps its value. -/
theorem read_writeAll_other (ws : List (RegIdx × Word)) (x : RegFile) (j : RegIdx) (h : ∀ w ∈ ws, w.1 ≠ j) :
    (x.writeAll ws).read j = x.read j := by
  induction ws generalizing x with
  | nil => rfl
  | cons w ws ih =>
    rw [writeAll_cons, ih _ fun w' hw' => h w' (List.mem_cons_of_mem _ hw')]
    exact read_write_other x w.2 fun e => h w List.mem_cons_self e.symm

@[simp] theorem read_zero (j : RegIdx) : RegFile.zero.read j = 0 := by
  simp [RegFile.zero, RegFile.read]

/-- Two register files that read alike are equal. -/
theorem regFile_ext {x y : RegFile} (h : ∀ j, x.read j = y.read j) : x = y := by
  apply Vector.ext
  intro k hk
  exact h ⟨k, hk⟩

/-! ### Completing and raising -/

theorem complete_spec (s : State) (ws : List (RegIdx × Word)) :
    ∃ t, complete s ws = .next t ∧ t.config = s.config ∧ t.inputs = s.inputs ∧
      t.statuses = s.statuses ++ [.cont] ∧ t.regs = s.regs.writeAll ws :=
  ⟨_, rfl, rfl, rfl, rfl, rfl⟩

theorem raise_spec (s : State) (e : Status) :
    ∃ t, raise s e = .next t ∧ t.config = s.config ∧ t.inputs = s.inputs ∧
      t.statuses = s.statuses ++ [e] ∧ t.regs = s.regs :=
  ⟨_, rfl, rfl, rfl, rfl, rfl⟩

theorem reserve_spec (op : Opcode) (s : State) :
    ∃ t, reserve op s = .next t ∧ t.config = s.config ∧ t.inputs = s.inputs ∧
      t.statuses = s.statuses ++ [reservedStatusOf s.config op] ∧ t.regs = s.regs :=
  ⟨_, rfl, rfl, rfl, rfl, rfl⟩

theorem jumpTo_spec (s : State) (v : Word) :
    ∃ t, jumpTo s v = .next t ∧ t.config = s.config ∧ t.inputs = s.inputs ∧
      t.statuses = s.statuses ++ [.cont] ∧ t.regs = s.regs.write s.config.idxPc v :=
  complete_spec s _

theorem jumpToIf_true (s : State) (v : Word) : jumpToIf true s v = jumpTo s v := rfl

theorem jumpToIf_false (s : State) (v : Word) : jumpToIf false s v = complete s [] := rfl

/-- RRDIV's writes are the remainder to `R_RMDR` and the quotient to another register, or one of the two to `R_RMDR`. -/
theorem divWrites_cases (cfg : Config) (d : RegIdx) (q r : Word) :
    (d ≠ cfg.idxRmdr ∧ divWrites cfg d q r = [(d, q), (cfg.idxRmdr, r)]) ∨
      (d = cfg.idxRmdr ∧ cfg.divCollision = .remainder ∧ divWrites cfg d q r = [(cfg.idxRmdr, r)]) ∨
      (d = cfg.idxRmdr ∧ cfg.divCollision = .quotient ∧ divWrites cfg d q r = [(cfg.idxRmdr, q)]) := by
  unfold divWrites
  by_cases h : d = cfg.idxRmdr
  · cases hc : cfg.divCollision <;> simp [h]
  · simp [h]

/-! ### Operand forms -/

theorem validReg_of_lt {f : Field} (h : f.toNat < rCount) : validReg f = some (regOf f h) := by
  simp [validReg, regOf, h]

theorem validReg_of_ge {f : Field} (h : rCount ≤ f.toNat) : validReg f = none := by
  simp [validReg, Nat.not_lt.mpr h]

theorem withReg_of_lt {f : Field} (h : f.toNat < rCount) (s : State) (k : RegIdx → Result) :
    withReg f s k = k (regOf f h) := by
  simp [withReg, validReg_of_lt h]

theorem withReg_of_ge {f : Field} (h : rCount ≤ f.toNat) (s : State) (k : RegIdx → Result) :
    withReg f s k = raise s (.invalidRegister f) := by
  simp [withReg, validReg_of_ge h]

/-- One register field: either it names no register and the error is raised, or the rest runs with the register. -/
theorem withReg_cases (f : Field) (s : State) (k : RegIdx → Result) :
    (rCount ≤ f.toNat ∧ withReg f s k = raise s (.invalidRegister f)) ∨
      ∃ h : f.toNat < rCount, withReg f s k = k (regOf f h) := by
  by_cases h : f.toNat < rCount
  · exact .inr ⟨h, withReg_of_lt h s k⟩
  · exact .inl ⟨Nat.not_lt.mp h, withReg_of_ge (Nat.not_lt.mp h) s k⟩

theorem withRegs2_of_lt {f g : Field} (hf : f.toNat < rCount) (hg : g.toNat < rCount) (s : State)
    (k : RegIdx → RegIdx → Result) : withRegs2 f g s k = k (regOf f hf) (regOf g hg) := by
  simp [withRegs2, withReg_of_lt hf, withReg_of_lt hg]

theorem withRegs2_cases (f g : Field) (s : State) (k : RegIdx → RegIdx → Result) :
    (∃ e, rCount ≤ e.toNat ∧ withRegs2 f g s k = raise s (.invalidRegister e)) ∨
      ∃ (hf : f.toNat < rCount) (hg : g.toNat < rCount), withRegs2 f g s k = k (regOf f hf) (regOf g hg) := by
  rcases withReg_cases f s (fun i => withReg g s fun j => k i j) with ⟨h, e⟩ | ⟨hf, e⟩
  · exact .inl ⟨f, h, e⟩
  · rcases withReg_cases g s (k (regOf f hf)) with ⟨h, e'⟩ | ⟨hg, e'⟩
    · exact .inl ⟨g, h, e.trans e'⟩
    · exact .inr ⟨hf, hg, e.trans e'⟩

theorem withRegs3_of_lt {f g h : Field} (hf : f.toNat < rCount) (hg : g.toNat < rCount) (hh : h.toNat < rCount)
    (s : State) (k : RegIdx → RegIdx → RegIdx → Result) :
    withRegs3 f g h s k = k (regOf f hf) (regOf g hg) (regOf h hh) := by
  simp [withRegs3, withReg_of_lt hf, withRegs2_of_lt hg hh]

theorem withRegs3_cases (f g h : Field) (s : State) (k : RegIdx → RegIdx → RegIdx → Result) :
    (∃ e, rCount ≤ e.toNat ∧ withRegs3 f g h s k = raise s (.invalidRegister e)) ∨
      ∃ (hf : f.toNat < rCount) (hg : g.toNat < rCount) (hh : h.toNat < rCount),
        withRegs3 f g h s k = k (regOf f hf) (regOf g hg) (regOf h hh) := by
  rcases withReg_cases f s (fun i => withRegs2 g h s fun j l => k i j l) with ⟨l, e⟩ | ⟨hf, e⟩
  · exact .inl ⟨f, l, e⟩
  · rcases withRegs2_cases g h s (k (regOf f hf)) with ⟨x, l, e'⟩ | ⟨hg, hh, e'⟩
    · exact .inl ⟨x, l, e.trans e'⟩
    · exact .inr ⟨hf, hg, hh, e.trans e'⟩

@[simp] theorem zext32_toNat (imm : Imm) : (zext32 imm).toNat = imm.toNat := by
  have := imm.isLt
  simp only [zext32, BitVec.toNat_setWidth]
  omega

/-! ### Flags -/

@[simp] theorem flagWord_true : flagWord true = 1 := rfl

@[simp] theorem flagWord_false : flagWord false = 0 := rfl

theorem flagWord_bit (c : Bool) : flagWord c = 0 ∨ flagWord c = 1 := by
  cases c <;> simp

/-- The three codes, each with its ordering (R162). -/
theorem orderCode_cases (a b : Word) :
    (a = b ∧ orderCode a b = codeEqual) ∨ (b.toNat < a.toNat ∧ orderCode a b = codeGreater) ∨
      (a.toNat < b.toNat ∧ orderCode a b = codeLess) := by
  unfold orderCode
  by_cases h : a = b
  · simp [h]
  · have hn : a.toNat ≠ b.toNat := fun e => h (BitVec.eq_of_toNat_eq e)
    by_cases h' : b.toNat < a.toNat
    · simp [h, h']
    · simp [h, h', Nat.lt_of_le_of_ne (Nat.not_lt.mp h') hn]

theorem flagSet_iff (s : State) : s.flagSet = true ↔ s.cond ≠ 0 := by simp [State.flagSet]

theorem flagClear_iff (s : State) : s.flagClear = true ↔ s.cond = 0 := by simp [State.flagClear]

end Sys2Proof.Machine
end

