-- ==== Sys2Proof/Laws/PerInstr.lean ====
section
/-! SUPPORT. Statements about every instruction as syntax, one lemma per constructor. -/

namespace Sys2Proof.Laws.EncodedFields

/-- The fields of an instruction's canonical word: its opcode byte, and the fields from which the field roles of
30_encoding.md R76 make the same instruction again, whatever the numbering. -/
def Statement (i : Instr) : Prop :=
  ∀ cfg : Config, (decodeFields (encode cfg i)).opcode = cfg.opcOf i.opcode ∧
    i.opcode.instr (decodeFields (encode cfg i)) = i

theorem opNthng : Statement .opNthng := fun cfg => by simp [encode, Instr.opcode, Opcode.instr]
theorem opCease : Statement .opCease := fun cfg => by simp [encode, Instr.opcode, Opcode.instr]
theorem opIlegl : Statement .opIlegl := fun cfg => by simp [encode, Instr.opcode, Opcode.instr]

theorem rload (dr : Field) (imm : Imm) : Statement (.rload dr imm) :=
  fun cfg => by simp [encode, Instr.opcode, Instr.fields, Opcode.instr]

theorem rradd (r1 r2 dr : Field) : Statement (.rradd r1 r2 dr) :=
  fun cfg => by simp [encode, Instr.opcode, Instr.fields, Opcode.instr]

theorem rrsub (r1 r2 dr : Field) : Statement (.rrsub r1 r2 dr) :=
  fun cfg => by simp [encode, Instr.opcode, Instr.fields, Opcode.instr]

theorem rrmux (r1 r2 dr : Field) : Statement (.rrmux r1 r2 dr) :=
  fun cfg => by simp [encode, Instr.opcode, Instr.fields, Opcode.instr]

theorem rrdiv (r1 r2 dr : Field) : Statement (.rrdiv r1 r2 dr) :=
  fun cfg => by simp [encode, Instr.opcode, Instr.fields, Opcode.instr]

theorem jumpa (imm : Imm) : Statement (.jumpa imm) :=
  fun cfg => by simp [encode, Instr.opcode, Instr.fields, Opcode.instr]

theorem jumpf (imm : Imm) : Statement (.jumpf imm) :=
  fun cfg => by simp [encode, Instr.opcode, Instr.fields, Opcode.instr]

theorem jumpb (imm : Imm) : Statement (.jumpb imm) :=
  fun cfg => by simp [encode, Instr.opcode, Instr.fields, Opcode.instr]

theorem rjmpa (reg : Field) : Statement (.rjmpa reg) :=
  fun cfg => by simp [encode, Instr.opcode, Instr.fields, Opcode.instr]

theorem rjmpf (reg : Field) : Statement (.rjmpf reg) :=
  fun cfg => by simp [encode, Instr.opcode, Instr.fields, Opcode.instr]

theorem rjmpb (reg : Field) : Statement (.rjmpb reg) :=
  fun cfg => by simp [encode, Instr.opcode, Instr.fields, Opcode.instr]

theorem rreql (r1 r2 : Field) : Statement (.rreql r1 r2) :=
  fun cfg => by simp [encode, Instr.opcode, Instr.fields, Opcode.instr]

theorem rrnql (r1 r2 : Field) : Statement (.rrnql r1 r2) :=
  fun cfg => by simp [encode, Instr.opcode, Instr.fields, Opcode.instr]

theorem rrgte (r1 r2 : Field) : Statement (.rrgte r1 r2) :=
  fun cfg => by simp [encode, Instr.opcode, Instr.fields, Opcode.instr]

theorem rrlte (r1 r2 : Field) : Statement (.rrlte r1 r2) :=
  fun cfg => by simp [encode, Instr.opcode, Instr.fields, Opcode.instr]

theorem rrgtx (r1 r2 : Field) : Statement (.rrgtx r1 r2) :=
  fun cfg => by simp [encode, Instr.opcode, Instr.fields, Opcode.instr]

theorem rrltx (r1 r2 : Field) : Statement (.rrltx r1 r2) :=
  fun cfg => by simp [encode, Instr.opcode, Instr.fields, Opcode.instr]

theorem rrcmp (r1 r2 : Field) : Statement (.rrcmp r1 r2) :=
  fun cfg => by simp [encode, Instr.opcode, Instr.fields, Opcode.instr]

theorem rjmpq (reg : Field) : Statement (.rjmpq reg) :=
  fun cfg => by simp [encode, Instr.opcode, Instr.fields, Opcode.instr]

theorem rjmpn (reg : Field) : Statement (.rjmpn reg) :=
  fun cfg => by simp [encode, Instr.opcode, Instr.fields, Opcode.instr]

theorem jumpq (imm : Imm) : Statement (.jumpq imm) :=
  fun cfg => by simp [encode, Instr.opcode, Instr.fields, Opcode.instr]

theorem jumpn (imm : Imm) : Statement (.jumpn imm) :=
  fun cfg => by simp [encode, Instr.opcode, Instr.fields, Opcode.instr]

end Sys2Proof.Laws.EncodedFields
end

