-- ==== Sys2Proof/Laws/Step.lean ====
section
/-! SUPPORT. What a clock edge can be. -/

namespace Sys2Proof.Machine

theorem step_idle (s : State) (h : s.inputs = []) : step s = .next s := by simp [step, h]

theorem step_cycle (s : State) (c : PortsIn) (rest : List PortsIn) (h : s.inputs = c :: rest) :
    step s = clockEdge c { s with inputs := rest } := by simp [step, h]

/-- A run of any machine takes one step and goes on from where it leads. -/
theorem host_run_succ (M : Host.Core) {s t : M.State} (n : Nat) (h : M.step s = .next t) :
    M.run (n + 1) s = M.run n t := by
  rw [Host.Core.run, h]

/-- The same of this machine. -/
theorem run_succ {s t : State} (n : Nat) (h : step s = .next t) :
    Host.Core.run core (n + 1) s = Host.Core.run core n t := host_run_succ core n h

theorem clockEdge_word (w : Word) (s : State) : clockEdge (PortsIn.word w) s = present w s := rfl

theorem present_ok {w : Word} {s : State} {i : Instr} (h : decode s.config w = .ok i) : present w s = exec i s := by
  simp [present, h]

theorem present_error {w : Word} {s : State} {b : Field} (h : decode s.config w = .error (.unknownOpcode b)) :
    present w s = raise s (.unknownOpcode b) := by
  simp [present, h]

/-- The status presented with a cycle queued: that of the presented word's step, while `rst` is low. -/
theorem statusNow_cycle (s : State) (c : PortsIn) (rest : List PortsIn) (h : s.inputs = c :: rest) :
    s.statusNow =
      if c.instrValid && !c.rst then statusIn (present c.instrWord { s with inputs := rest }) else none := by
  simp [State.statusNow, h]

theorem statusNow_without_word (s : State) (c : PortsIn) (rest : List PortsIn) (h : s.inputs = c :: rest)
    (hc : c.instrValid = false ∨ c.rst = true) : s.statusNow = none := by
  rw [statusNow_cycle s c rest h]
  rcases hc with hv | hr
  · simp [hv]
  · simp [hr]

/-- A step is an idle cycle, a reset, or the presented word run from the state with the cycle taken off the queue. -/
theorem step_cases (s : State) :
    (s.inputs = [] ∧ step s = .next s) ∨
      ∃ c rest, s.inputs = c :: rest ∧
        ((c.rst = true ∧ step s = .next (State.applyReset { s with inputs := rest })) ∨
          (c.rst = false ∧ c.instrValid = false ∧ step s = .next { s with inputs := rest }) ∨
          (c.rst = false ∧ c.instrValid = true ∧ step s = present c.instrWord { s with inputs := rest })) := by
  cases h : s.inputs with
  | nil => exact .inl ⟨rfl, step_idle s h⟩
  | cons c rest =>
    refine .inr ⟨c, rest, rfl, ?_⟩
    rw [step_cycle s c rest h]
    obtain ⟨r, v, w⟩ := c
    cases r <;> cases v <;> simp [clockEdge]

end Sys2Proof.Machine
end

