-- ==== Sys2Proof/Tests/Slice0.lean ====
section
/-! SUPPORT. The model's own tests: the smoke test of WellFormed, decoding of words written out from 30_encoding.md
R73, R76 and R78, one step on small states, and a witness for the hypotheses of each statement. Expected results come
from spec/95_test_vectors.md; a test's docstring names the vector. -/

namespace Sys2Proof.Tests

open Sys2Proof Sys2Proof.Machine

/-! ### Helpers -/

/-- The reset state with some registers set. -/
def withRegs (ws : List (RegIdx × Word)) : State := { State.reset with regs := RegFile.zero.writeAll ws }

/-- The start state of groups 2.7 and 2.8: every kind of register non-zero. -/
def busy : State := withRegs [(0, 1), (1, 2), (16, 3), (17, 4), (18, 1), (19, 2)]

/-- One step on the word answers a next state with exactly the listed registers changed and that status. -/
def yields (s : State) (w : Word) (changed : List (RegIdx × Word)) (st : Status) : Bool :=
  match step (s.withWord w) with
  | .next t => decide (t = { s with regs := s.regs.writeAll changed, statuses := [st] })
  | .fault _ => false
  | .refused _ => false

/-- The instruction answers a next state with that one status. -/
def answers (s : State) (i : Instr) (st : Status) : Bool :=
  match exec i s with
  | .next t => decide (t.statuses = s.statuses ++ [st])
  | .fault _ => false
  | .refused _ => false

/-- An admissible configuration that differs from the default in every parameter. -/
def otherConfig : Config where
  opc := #v[0xFE, 0xFD, 0xFC, 0xFB, 0xFA, 0xF9, 0xF8, 0xF7, 0xF6, 0xF5, 0xF4, 0xF3, 0xF2,
            0xF1, 0xF0, 0xEF, 0xEE, 0xED, 0xEC, 0xEB, 0xEA, 0xE9, 0xE8, 0xE7, 0xE6]
  idxPc := 19
  idxRmdr := 18
  idxCond := 17
  idxComp := 16
  reservedStatus := .unknownOpcode
  divCollision := .quotient

/-! ### WellFormed refuses each ill-formed register field -/

theorem test_wellFormed_one_register :
    (Instr.rload 19 0).WellFormed ∧ ¬ (Instr.rload 20 0).WellFormed ∧ ¬ (Instr.rjmpa 20).WellFormed ∧
      ¬ (Instr.rjmpq 255).WellFormed := by decide

theorem test_wellFormed_two_registers :
    (Instr.rreql 19 19).WellFormed ∧ ¬ (Instr.rreql 20 0).WellFormed ∧ ¬ (Instr.rreql 0 20).WellFormed := by decide

theorem test_wellFormed_three_registers :
    (Instr.rradd 19 19 19).WellFormed ∧ ¬ (Instr.rradd 20 0 0).WellFormed ∧ ¬ (Instr.rradd 0 20 0).WellFormed ∧
      ¬ (Instr.rradd 0 0 20).WellFormed := by decide

/-! ### Decoding and encoding, by the words of R73 and R78 -/

theorem test_decode_reserved :
    decodeTableWord 32 0x00FFFFFF = some .opNthng ∧ decodeTableWord 32 0x01141516 = some .opCease ∧
      decodeTableWord 32 0x02ABCDEF = some .opIlegl := by decide

theorem test_decode_load : decodeTableWord 32 0x030FBEEF = some (.rload 15 0xBEEF) := by decide

theorem test_decode_arithmetic :
    decodeTableWord 32 0x04010203 = some (.rradd 1 2 3) ∧ decodeTableWord 32 0x05010203 = some (.rrsub 1 2 3) ∧
      decodeTableWord 32 0x06010203 = some (.rrmux 1 2 3) ∧ decodeTableWord 32 0x07010203 = some (.rrdiv 1 2 3) := by
  decide

theorem test_decode_immediate_jumps :
    decodeTableWord 32 0x08AB1234 = some (.jumpa 0x1234) ∧ decodeTableWord 32 0x09008001 = some (.jumpf 0x8001) ∧
      decodeTableWord 32 0x0A00FF00 = some (.jumpb 0xFF00) := by decide

theorem test_decode_register_jumps :
    decodeTableWord 32 0x0B03FFFF = some (.rjmpa 3) ∧ decodeTableWord 32 0x0C100000 = some (.rjmpf 16) ∧
      decodeTableWord 32 0x0DFF0000 = some (.rjmpb 255) := by decide

theorem test_decode_comparisons :
    decodeTableWord 32 0x0E0001FF = some (.rreql 0 1) ∧ decodeTableWord 32 0x0F040500 = some (.rrnql 4 5) ∧
      decodeTableWord 32 0x10040500 = some (.rrgte 4 5) ∧ decodeTableWord 32 0x11040500 = some (.rrlte 4 5) ∧
      decodeTableWord 32 0x12040500 = some (.rrgtx 4 5) ∧ decodeTableWord 32 0x13040500 = some (.rrltx 4 5) ∧
      decodeTableWord 32 0x14202100 = some (.rrcmp 32 33) := by decide

theorem test_decode_conditional_jumps :
    decodeTableWord 32 0x1503C8C8 = some (.rjmpq 3) ∧ decodeTableWord 32 0x16120000 = some (.rjmpn 18) ∧
      decodeTableWord 32 0x17FF0008 = some (.jumpq 8) ∧ decodeTableWord 32 0x1800FFFF = some (.jumpn 0xFFFF) := by
  decide

theorem test_decode_rejects_by_name :
    decode Config.spec 0x19000000 = .error (.unknownOpcode 0x19) ∧
      decode Config.spec 0xFF123456 = .error (.unknownOpcode 0xFF) ∧ decodeTableWord 32 0x80000102 = none := by decide

theorem test_encode_canonical_words :
    encode Config.spec (.rload 0 0xBEEF) = 0x0300BEEF ∧ encode Config.spec (.rrdiv 0 1 200) = 0x070001C8 ∧
      encode Config.spec (.jumpb 0x20) = 0x0A000020 ∧ encode Config.spec (.rjmpa 3) = 0x0B030000 ∧
      encode Config.spec (.rrcmp 1 0) = 0x14010000 ∧ encode Config.spec .opCease = 0x01000000 := by decide

/-! ### One step on the vectors of spec/95_test_vectors.md -/

/-- X2 -/
theorem test_opNthng_ignores_fields : yields busy 0x00FFFFFF [] (.cont) = true := by decide

/-- X4 -/
theorem test_opCease_goes_on : yields busy 0x01141516 [] (.cont) = true := by decide

/-- X6 -/
theorem test_opIlegl_is_no_unknown_opcode : yields busy 0x02ABCDEF [] (.cont) = true := by decide

/-- S5b -/
theorem test_rload_replaces_the_whole_register :
    yields (withRegs [(7, 0xFFFFFFFF)]) 0x0307BEEF [(7, 0x0000BEEF)] (.cont) = true := by decide

/-- L8 -/
theorem test_rload_into_the_flag : yields (withRegs [(18, 1)]) 0x03120007 [(18, 7)] (.cont) = true := by decide

/-- L10 -/
theorem test_rload_invalid_register :
    yields (withRegs [(0, 0x11)]) 0x03140005 [] (.invalidRegister 20) = true := by decide

/-- A3 -/
theorem test_rradd_wraps :
    yields (withRegs [(0, 0xFFFFFFFF), (1, 0xFFFFFFFF)]) 0x04000102 [(2, 0xFFFFFFFE)] (.cont) = true := by decide

/-- A6 -/
theorem test_rradd_on_the_pc :
    yields (withRegs [(0, 0x10), (16, 0x100)]) 0x04100010 [(16, 0x110)] (.cont) = true := by decide

/-- A8 -/
theorem test_rrsub_wraps : yields (withRegs [(0, 3), (1, 5)]) 0x05000102 [(2, 0xFFFFFFFE)] (.cont) = true := by decide

/-- A13 -/
theorem test_rrsub_destination_is_a_source :
    yields (withRegs [(0, 0x80000000), (1, 1)]) 0x05000100 [(0, 0x7FFFFFFF)] (.cont) = true := by decide

/-- A21 -/
theorem test_rrmux_keeps_the_low_half :
    yields (withRegs [(0, 0x12345678), (1, 0x9ABCDEF0)]) 0x06000102 [(2, 0x242D2080)] (.cont) = true := by decide

/-- A19 -/
theorem test_rrmux_squares :
    yields (withRegs [(0, 0x00010001)]) 0x06000000 [(0, 0x00020001)] (.cont) = true := by decide

/-- D14 -/
theorem test_rrdiv_destination_is_the_divisor :
    yields (withRegs [(0, 0x11), (1, 5)]) 0x07000101 [(1, 3), (17, 2)] (.cont) = true := by decide

/-- D15 -/
theorem test_rrdiv_collision_keeps_the_remainder :
    yields (withRegs [(0, 0x11), (1, 5), (17, 0x63)]) 0x07000111 [(17, 2)] (.cont) = true := by decide

/-- D7 -/
theorem test_rrdiv_is_unsigned :
    yields (withRegs [(0, 0x80000000), (1, 0xFFFFFFFF)]) 0x07000102 [(17, 0x80000000)] (.cont) = true := by decide

/-- D10 -/
theorem test_rrdiv_by_zero :
    yields (withRegs [(0, 0x11), (2, 0xAAAA), (17, 0xBBBB)]) 0x07000102 [] (.divisionByZero) = true := by decide

/-- D19 -/
theorem test_rrdiv_invalid_register_first :
    yields (withRegs [(0, 0x11), (2, 0xAAAA)]) 0x070001C8 [] (.invalidRegister 200) = true := by decide

/-- J4 -/
theorem test_jumpa_is_absolute :
    yields (withRegs [(16, 0xDEADBEEF)]) 0x08AB1234 [(16, 0x1234)] (.cont) = true := by decide

/-- J7 -/
theorem test_jumpf_wraps : yields (withRegs [(16, 0xFFFF8000)]) 0x09008000 [(16, 0)] (.cont) = true := by decide

/-- J8 -/
theorem test_jumpf_offset_is_unsigned : yields (withRegs []) 0x0900FFFF [(16, 0xFFFF)] (.cont) = true := by decide

/-- J12 -/
theorem test_jumpb_wraps : yields (withRegs [(16, 0x10)]) 0x0A000020 [(16, 0xFFFFFFF0)] (.cont) = true := by decide

/-- J17 -/
theorem test_rjmpa_sets_32_bits :
    yields (withRegs [(3, 0x00ABCDEF), (16, 0x10)]) 0x0B03FFFF [(16, 0x00ABCDEF)] (.cont) = true := by decide

/-- E10 -/
theorem test_rjmpa_invalid_register : yields busy 0x0B14FFFF [] (.invalidRegister 20) = true := by decide

/-- J20 -/
theorem test_rjmpf_doubles_the_pc :
    yields (withRegs [(16, 0x80000001)]) 0x0C100000 [(16, 2)] (.cont) = true := by decide

/-- J25 -/
theorem test_rjmpb_wraps :
    yields (withRegs [(3, 0x20), (16, 0x10)]) 0x0D030000 [(16, 0xFFFFFFF0)] (.cont) = true := by decide

/-- C2 -/
theorem test_rreql_replaces_the_whole_flag :
    yields (withRegs [(0, 5), (1, 3), (18, 0xFFFFFFFF)]) 0x0E000100 [(18, 0)] (.cont) = true := by decide

/-- C11 -/
theorem test_rreql_reads_the_old_flag :
    yields (withRegs [(0, 5), (18, 5)]) 0x0E120000 [(18, 1)] (.cont) = true := by decide

/-- C3 -/
theorem test_rrnql_of_a_register_with_itself :
    yields (withRegs [(4, 0x1234)]) 0x0F040400 [] (.cont) = true := by decide

/-- matrix row 5 -/
theorem test_rrgte_is_unsigned :
    yields (withRegs [(0, 0x80000000), (1, 1), (18, 0xFFFFFFFF)]) 0x10000100 [(18, 1)] (.cont) = true := by decide

/-- C4 -/
theorem test_rrgte_of_equals : yields (withRegs [(4, 0x1234)]) 0x10040400 [(18, 1)] (.cont) = true := by decide

/-- matrix row 6 -/
theorem test_rrlte_is_unsigned :
    yields (withRegs [(0, 1), (1, 0x80000000), (18, 0xFFFFFFFF)]) 0x11000100 [(18, 1)] (.cont) = true := by decide

/-- matrix row 3 -/
theorem test_rrlte_of_a_greater :
    yields (withRegs [(0, 5), (1, 3), (18, 0xFFFFFFFF)]) 0x11000100 [(18, 0)] (.cont) = true := by decide

/-- C5 -/
theorem test_rrgtx_of_equals :
    yields (withRegs [(4, 0x1234), (18, 1)]) 0x12040400 [(18, 0)] (.cont) = true := by decide

/-- C7 -/
theorem test_rrgtx_is_unsigned :
    yields (withRegs [(0, 0x80000000), (1, 1)]) 0x12000100 [(18, 1)] (.cont) = true := by decide

/-- C13 -/
theorem test_rrltx_ignores_field_c :
    yields (withRegs [(0, 3), (1, 5)]) 0x130001FF [(18, 1)] (.cont) = true := by decide

/-- C14 -/
theorem test_rrltx_first_field_reported :
    yields (withRegs [(0, 3), (1, 5), (18, 1)]) 0x13140100 [] (.invalidRegister 20) = true := by decide

/-- C8 -/
theorem test_rrcmp_less :
    yields (withRegs [(0, 3), (1, 5), (18, 1), (19, 2)]) 0x14000100 [(19, 4)] (.cont) = true := by decide

/-- C9 -/
theorem test_rrcmp_greater :
    yields (withRegs [(0, 3), (1, 5), (18, 1), (19, 2)]) 0x14010000 [(19, 1)] (.cont) = true := by decide

/-- Q9 -/
theorem test_rjmpq_on_any_nonzero_flag :
    yields (withRegs [(3, 0x400), (16, 0x10), (18, 2)]) 0x15030000 [(16, 0x400)] (.cont) = true := by decide

/-- Q17 -/
theorem test_rjmpq_validates_when_not_taken :
    yields (withRegs [(16, 0x10)]) 0x15140000 [] (.invalidRegister 20) = true := by decide

/-- Q3 -/
theorem test_rjmpn_taken_when_clear :
    yields (withRegs [(3, 0x400), (16, 0x10)]) 0x16030000 [(16, 0x400)] (.cont) = true := by decide

/-- Q4 -/
theorem test_rjmpn_not_taken_when_set :
    yields (withRegs [(3, 0x400), (16, 0x10), (18, 1)]) 0x16030000 [] (.cont) = true := by decide

/-- Q12 -/
theorem test_jumpq_is_relative_and_wraps :
    yields (withRegs [(16, 0xFFFFFFFF), (18, 1)]) 0x17000002 [(16, 1)] (.cont) = true := by decide

/-- Q6 -/
theorem test_jumpq_not_taken_when_clear : yields (withRegs [(16, 0x100)]) 0x17000008 [] (.cont) = true := by decide

/-- Q13 -/
theorem test_jumpn_taken_when_clear :
    yields (withRegs [(16, 0xFFFF0000)]) 0x1800FFFF [(16, 0xFFFFFFFF)] (.cont) = true := by decide

/-- Q11 -/
theorem test_jumpn_tests_the_whole_flag :
    yields (withRegs [(16, 0x100), (18, 0x80000000)]) 0x18000008 [] (.cont) = true := by decide

/-- X11 -/
theorem test_unknown_opcode : yields busy 0x19FFFFFF [] (.unknownOpcode 0x19) = true := by decide

/-- S9b -/
theorem test_unknown_opcode_ff : yields busy 0xFF123456 [] (.unknownOpcode 0xFF) = true := by decide

/-! ### The interface -/

/-- R220: reset wins over a presented word. -/
theorem test_reset_wins :
    step { busy with inputs := [⟨true, true, 0x0300BEEF⟩] } = .next { busy with regs := RegFile.zero, inputs := [] } := by
  rfl

/-- R112: with `instr_valid` low the register file holds. -/
theorem test_idle_cycle_holds : step { busy with inputs := [⟨false, false, 0x0300BEEF⟩] } = .next busy := by rfl

/-- R112: the ports while `0x04000117` is presented (vector E3), with the debug index at 19. -/
theorem test_ports_show_an_error :
    (busy.withWord 0x04000117).portsOut 19 = ⟨true, some 3, 23, 2, true, 3⟩ := by decide

/-- R112: no word presented, and a debug index that names no register. -/
theorem test_ports_when_idle : busy.portsOut 20 = ⟨false, none, 0, 0, false, 3⟩ := by decide

/-- R112: no status in a reset cycle, though the word presented is that of vector E3, and `status_info` is 0. -/
theorem test_ports_when_reset_wins :
    ({ busy with inputs := [⟨true, true, 0x04000117⟩] } : State).portsOut 19 = ⟨false, none, 0, 2, true, 3⟩ := by decide

/-- The step takes the word that `withFetchWord` places. -/
theorem test_withFetchWord_runs_the_word :
    step (State.reset.withFetchWord 32 0x0300BEEF) =
      .next { State.reset with regs := RegFile.zero.write 0 0xBEEF, statuses := [.cont] } := by rfl

/-! ### Witnesses: states and operands that meet the hypotheses of each statement -/

theorem witness_DecoderSlicesTheWord : decodeFields 0xFFFFFFFF = decodeFields 0xFFFFFFFF := rfl

theorem witness_admissible_configurations : Config.spec.Admissible ∧ otherConfig.Admissible := by decide

theorem witness_DecodeOfEncodeIsTheInstruction :
    Config.spec.Admissible ∧ otherConfig.Admissible := witness_admissible_configurations

theorem witness_UnusedFieldsAreIgnoredAndNoOthers :
    otherConfig.Admissible ∧ decode otherConfig 0xE6FF0001 = .ok (.jumpn 1) ∧
      (0xE6FF0001 : Word) &&& usedMask (.jumpn 1) = encode otherConfig (.jumpn 1) := by decide

theorem witness_OpcodeByteSelectsTheOperation :
    Config.spec.Admissible ∧ Config.spec.opcOf .jumpn = (0x18FFFFFF : Word).extractLsb' 24 8 ∧
      ∀ op ∈ Opcode.all, busy.config.opcOf op ≠ (0x19000000 : Word).extractLsb' 24 8 := by decide

theorem witness_StepRunsTheDecodedInstruction :
    (busy.withWord 0x04000113).inputs = PortsIn.word 0x04000113 :: [] ∧
      decode busy.config (PortsIn.word 0x04000113).instrWord = .ok (.rradd 0 1 19) := by decide

theorem witness_ResetCycleZeroesEveryRegister :
    ({ busy with inputs := [⟨true, true, 0⟩] } : State).inputs = ⟨true, true, 0⟩ :: [] := rfl

theorem witness_IdleCycleHoldsTheState :
    ({ busy with inputs := [⟨false, false, 0⟩] } : State).inputs = ⟨false, false, 0⟩ :: [] ∧ busy.inputs = [] :=
  ⟨rfl, rfl⟩

theorem witness_NoStatusStopsTheMachine :
    ∃ t, step (busy.withWord 0x07000F02) = .next t ∧ t.statuses = busy.statuses ++ [.divisionByZero] :=
  ⟨_, rfl, rfl⟩

theorem witness_NoStepChangesTheWordsToCome : ∃ t, step (busy.withWord 0x08001234) = .next t := ⟨_, rfl⟩

theorem witness_OnlyNamedOrImplicitRegistersChange :
    ∃ t, exec (.rrdiv 16 1 19) busy = .next t ∧ t.reg 19 ≠ busy.reg 19 ∧ t.reg 17 ≠ busy.reg 17 :=
  ⟨_, rfl, by decide, by decide⟩

theorem witness_ConsecutiveErrorsLeaveNoTrace :
    ∃ t, Host.Core.run core 2 (busy.withWords [0xFF000000, 0x04000014]) = .next t ∧
      t.statuses = busy.statuses ++ [.unknownOpcode 0xFF, .invalidRegister 20] := ⟨_, rfl, rfl⟩

theorem witness_InvalidRegisterExactlyWhenIllFormed :
    (Instr.rrdiv 0 20 21).regFields.find? (fun g => decide (rCount ≤ g.toNat)) = some 20 ∧
      (Instr.rrdiv 0 1 19).WellFormed := by decide

theorem witness_CondStaysAFlag :
    CondInvariant (busy.withWord 0x0E000100) ∧ ∃ t, step (busy.withWord 0x0E000100) = .next t :=
  ⟨⟨by decide, by decide, by
    intro c hc
    obtain rfl : c = PortsIn.word 0x0E000100 := by simpa [State.withWord, busy, withRegs, State.reset] using hc
    rintro ⟨-, -, i, f, hi, hf, -⟩
    obtain rfl : Instr.rreql 0 1 = i := Except.ok.inj (((by decide :
      decode (busy.withWord 0x0E000100).config (PortsIn.word 0x0E000100).instrWord = .ok (.rreql 0 1))).symm.trans hi)
    cases hf⟩, _, rfl⟩

theorem witness_CompStaysACode : CompInvariant busy ∧ ∃ t, step busy = .next t :=
  ⟨⟨by decide, by decide, by simp [busy, withRegs, State.reset]⟩, _, rfl⟩

theorem witness_CompIsACodeAfterACompare :
    CompWritten busy ∧ ∃ t, exec (.rrcmp 0 19) busy = .next t ∧ t.statuses = busy.statuses ++ [.cont] :=
  ⟨⟨by decide, by decide, by simp [busy, withRegs, State.reset]⟩, _, rfl, rfl⟩

theorem witness_ReservedOpcodesDoNothing :
    busy.config.reservedStatus = .continues ∧ otherConfig.reservedStatus = .unknownOpcode := by decide

/-- The boundary of a register field's range: 19 names a register, 20 does not. -/
theorem witness_register_field_boundary : (19 : Field).toNat < rCount ∧ rCount ≤ (20 : Field).toNat := by decide

theorem witness_RrdivDivides :
    busy.reg (regOf 0 (by decide)) ≠ 0 ∧ busy.reg (regOf 15 (by decide)) = 0 ∧
      regOf 19 (by decide) ≠ busy.config.idxRmdr ∧ regOf 17 (by decide) = busy.config.idxRmdr ∧
      busy.config.divCollision = .remainder := by decide

theorem witness_RrdivCollisionCanKeepTheQuotient :
    ({ busy with config := otherConfig } : State).reg (regOf 0 (by decide)) ≠ 0 ∧
      regOf 18 (by decide) = otherConfig.idxRmdr ∧ otherConfig.divCollision = .quotient := by decide

theorem witness_DivisionLaw :
    regOf 19 (by decide) ≠ busy.config.idxRmdr ∧
      ∃ t, exec (.rrdiv 17 1 19) busy = .next t ∧ t.statuses = busy.statuses ++ [.cont] :=
  ⟨by decide, _, rfl, rfl⟩

theorem witness_AddThenSubtractRestores :
    (0 : Field).toNat < rCount ∧ (19 : Field).toNat < rCount ∧ (0 : Field) ≠ 19 := by decide

theorem witness_ConditionalJumpsTestTheWholeFlag :
    busy.config.Admissible ∧ busy.cond ≠ 0 ∧ State.reset.cond = 0 ∧
      (Instr.rjmpq 18).opcode ∈ [Opcode.rjmpq, .rjmpn, .jumpq, .jumpn] ∧
      busy.config.idxComp.val ∉ (Instr.rjmpq 18).regFields.map BitVec.toNat := by decide

theorem witness_StatusPortShowsTheStepsStatus :
    ∃ t, (busy.withWord 0x04000117).inputs = PortsIn.word 0x04000117 :: [] ∧
      step (busy.withWord 0x04000117) = .next t ∧ t.statuses = busy.statuses ++ [.invalidRegister 23] :=
  ⟨_, rfl, rfl, rfl⟩

theorem witness_StatusPortShowsTheStepsStatus_no_status :
    ({ busy with inputs := [⟨false, false, 0x04000117⟩] } : State).inputs = ⟨false, false, 0x04000117⟩ :: [] ∧
      ({ busy with inputs := [⟨true, true, 0x04000117⟩] } : State).inputs = ⟨true, true, 0x04000117⟩ :: [] ∧
      ((⟨false, false, 0x04000117⟩ : PortsIn).instrValid = false ∨ (⟨false, false, 0x04000117⟩ : PortsIn).rst = true) ∧
      ((⟨true, true, 0x04000117⟩ : PortsIn).instrValid = false ∨ (⟨true, true, 0x04000117⟩ : PortsIn).rst = true) :=
  ⟨rfl, rfl, .inl rfl, .inr rfl⟩

theorem witness_DebugPortReadsTheRegisters : (19 : Field).toNat < rCount ∧ rCount ≤ (20 : Field).toNat :=
  witness_register_field_boundary

/-! The per-instruction statements: each has the hypotheses that a field names a register or does not, so each witness
is the instruction at the boundary: 19 completes and 20 is reported. -/

theorem witness_RloadLoadsTheImmediate : answers busy (.rload 19 0xFFFF) .cont ∧ answers busy (.rload 20 0) (.invalidRegister 20) := by decide

theorem witness_RraddAdds : answers busy (.rradd 19 19 19) .cont ∧ answers busy (.rradd 19 19 20) (.invalidRegister 20) := by decide

theorem witness_RrsubSubtracts : answers busy (.rrsub 19 19 19) .cont ∧ answers busy (.rrsub 19 20 20) (.invalidRegister 20) := by decide

theorem witness_RrmuxMultiplies : answers busy (.rrmux 19 19 19) .cont ∧ answers busy (.rrmux 20 255 255) (.invalidRegister 20) := by decide

theorem witness_RjmpaSetsPcFromARegister : answers busy (.rjmpa 19) .cont ∧ answers busy (.rjmpa 20) (.invalidRegister 20) := by decide

theorem witness_RjmpfAdvancesPcByARegister : answers busy (.rjmpf 19) .cont ∧ answers busy (.rjmpf 20) (.invalidRegister 20) := by decide

theorem witness_RjmpbMovesPcBackByARegister : answers busy (.rjmpb 19) .cont ∧ answers busy (.rjmpb 20) (.invalidRegister 20) := by decide

theorem witness_RreqlComparesEqual : answers busy (.rreql 19 19) .cont ∧ answers busy (.rreql 19 20) (.invalidRegister 20) := by decide

theorem witness_RrnqlComparesNotEqual : answers busy (.rrnql 19 0) .cont ∧ answers busy (.rrnql 19 20) (.invalidRegister 20) := by decide

theorem witness_RrgteComparesGreaterOrEqual : answers busy (.rrgte 19 0) .cont ∧ answers busy (.rrgte 20 21) (.invalidRegister 20) := by decide

theorem witness_RrlteComparesLessOrEqual : answers busy (.rrlte 19 0) .cont ∧ answers busy (.rrlte 20 0) (.invalidRegister 20) := by decide

theorem witness_RrgtxComparesGreater : answers busy (.rrgtx 19 0) .cont ∧ answers busy (.rrgtx 19 20) (.invalidRegister 20) := by decide

theorem witness_RrltxComparesLess : answers busy (.rrltx 0 19) .cont ∧ answers busy (.rrltx 19 20) (.invalidRegister 20) := by decide

theorem witness_RrcmpComparesThreeWays : answers busy (.rrcmp 0 19) .cont ∧ answers busy (.rrcmp 20 32) (.invalidRegister 20) := by decide

theorem witness_RjmpqJumpsWhenTheFlagIsSet : answers busy (.rjmpq 19) .cont ∧ answers busy (.rjmpq 20) (.invalidRegister 20) := by decide

theorem witness_RjmpnJumpsWhenTheFlagIsClear : answers busy (.rjmpn 19) .cont ∧ answers busy (.rjmpn 20) (.invalidRegister 20) := by decide

theorem witness_immediate_forms_complete :
    answers busy (.jumpa 0xFFFF) .cont ∧ answers busy (.jumpf 0xFFFF) .cont ∧ answers busy (.jumpb 0xFFFF) .cont ∧
      answers busy (.jumpq 0xFFFF) .cont ∧ answers busy (.jumpn 0xFFFF) .cont := by decide

end Sys2Proof.Tests
end

section
/-! The default parameters (00_scope.md R6). The default numbering counts the opcode names from 0 (D1), and the special
registers are numbered on from the general ones (D2); R6's constraints are read off these two facts. -/

namespace Sys2Proof

/-- The spec's decision D1: the default opcode byte of a name is the name's place in the list (R78). -/
theorem toNat_defaultOpc : defaultOpc.toList.map BitVec.toNat = List.range 25 := by decide

theorem nodup_defaultOpc : defaultOpc.toList.Nodup :=
  List.Nodup.of_map BitVec.toNat (toNat_defaultOpc ▸ List.nodup_range)

theorem toNat_lt_of_mem_defaultOpc {b : Field} (hb : b ∈ defaultOpc.toList) : b.toNat < 25 := by
  have hmem : b.toNat ∈ List.range 25 := toNat_defaultOpc ▸ List.mem_map_of_mem hb
  exact List.mem_range.mp hmem

/-- The spec's decision D2: the default special registers are the four after the general ones, in R23's order. -/
theorem val_specials_spec : Config.spec.specials.map Fin.val = List.range' 16 4 := by decide

theorem nodup_specials_spec : Config.spec.specials.Nodup :=
  List.Nodup.of_map Fin.val (val_specials_spec ▸ List.nodup_range')

theorem sixteen_le_of_mem_specials_spec {i : RegIdx} (hi : i ∈ Config.spec.specials) : 16 ≤ i.val := by
  have hmem : i.val ∈ List.range' 16 4 := val_specials_spec ▸ List.mem_map_of_mem hi
  exact (List.mem_range'_1.mp hmem).1

/-- Settles O6, from the default numberings D1 and D2: `0xFF` is past the last default opcode byte. -/
theorem defaultParametersAreAdmissible : Obligations.DefaultParametersAreAdmissible := by
  have hFF : (0xFF : Field) ∉ Config.spec.opc.toList := fun hmem =>
    absurd (toNat_lt_of_mem_defaultOpc hmem) (by decide)
  exact ⟨nodup_defaultOpc, hFF, nodup_specials_spec, fun _ hi => sixteen_le_of_mem_specials_spec hi⟩

end Sys2Proof
end

section
/-! What an instruction can do to the registers, said once (10_state.md R24, R27, R32; 40_dispatch.md R105): each
shared operation answers with one status and changes only registers it is allowed to, and so does every instruction. -/

namespace Sys2Proof.Machine

/-! ### Which values go where -/

/-- The values that reach a special register without its being named as DR (R32): any word reaches `R_PC` and
`R_RMDR`, but only a flag reaches `R_COND` and only a comparison code reaches `R_COMP` (R30, R31). -/
inductive ImplicitWrite (cfg : Config) : RegIdx → Word → Prop
  | pc (v : Word) : ImplicitWrite cfg cfg.idxPc v
  | rmdr (v : Word) : ImplicitWrite cfg cfg.idxRmdr v
  | cond (holds : Bool) : ImplicitWrite cfg cfg.idxCond (flagWord holds)
  | comp (a b : Word) : ImplicitWrite cfg cfg.idxComp (orderCode a b)

/-- Instruction `i` can leave the value `v` in register `j`: `j` is named as DR, or it is the special register the
opcode writes implicitly and `v` is one of the values that reach it so. -/
inductive CanWrite (cfg : Config) (i : Instr) (j : RegIdx) (v : Word) : Prop
  | named (f : Field) (hdest : i.destField = some f) (hf : f.toNat = j.val)
  | implicit (hdest : implicitDest cfg i = some j) (hv : ImplicitWrite cfg j v)

theorem CanWrite.mayWrite {cfg : Config} {i : Instr} {j : RegIdx} {v : Word} (h : CanWrite cfg i j v) :
    MayWrite cfg i j := by
  cases h with
  | named f hdest hf => exact .inl ⟨f, hdest, hf⟩
  | implicit hdest _ => exact .inr hdest

/-- A register the writes have changed holds the value one of them gave it. -/
theorem mem_of_read_writeAll_ne (ws : List (RegIdx × Word)) (x : RegFile) (j : RegIdx)
    (h : (x.writeAll ws).read j ≠ x.read j) : (j, (x.writeAll ws).read j) ∈ ws := by
  induction ws generalizing x with
  | nil => exact absurd rfl h
  | cons w ws ih =>
    obtain ⟨i, v⟩ := w
    rw [writeAll_cons] at h ⊢
    by_cases hlater : ((x.write i v).writeAll ws).read j = (x.write i v).read j
    · obtain rfl : j = i := by
        by_contra hji
        exact h (hlater.trans (read_write_other x v hji))
      simp [hlater]
    · exact List.mem_cons_of_mem _ (ih _ hlater)

/-! ### The answers of the shared operations -/

/-- The answer `a` in state `s`: a next state with one status more, the driver's side and the configuration kept, no
register changed by an error, and in a changed register a value that `W` allows there. -/
def AnswersWithin (s : State) (W : RegIdx → Word → Prop) (a : Result) : Prop :=
  ∃ (st : Status) (t : State), a = .next t ∧ t.config = s.config ∧ t.inputs = s.inputs ∧
    t.statuses = s.statuses ++ [st] ∧ (st ≠ .cont → t.regs = s.regs) ∧ ∀ j, t.reg j ≠ s.reg j → W j (t.reg j)

theorem AnswersWithin.mono {s : State} {W W' : RegIdx → Word → Prop} {a : Result} (h : AnswersWithin s W a)
    (hW : ∀ j v, W j v → W' j v) : AnswersWithin s W' a := by
  obtain ⟨st, t, ha, hcfg, hin, hst, herr, hreg⟩ := h
  exact ⟨st, t, ha, hcfg, hin, hst, herr, fun j hj => hW j _ (hreg j hj)⟩

section
variable {s : State} {W : RegIdx → Word → Prop}

/-- Handing back a status changes no register, whatever the status. -/
theorem answersWithin_report (st : Status) : AnswersWithin s W (.next (s.report st)) :=
  ⟨st, _, rfl, rfl, rfl, rfl, fun _ => rfl, fun _ hj => absurd rfl hj⟩

theorem answersWithin_raise (e : Status) : AnswersWithin s W (raise s e) := answersWithin_report e

theorem answersWithin_reserve (op : Opcode) : AnswersWithin s W (reserve op s) := answersWithin_report _

theorem answersWithin_complete {ws : List (RegIdx × Word)} (hws : ∀ w ∈ ws, W w.1 w.2) :
    AnswersWithin s W (complete s ws) := by
  obtain ⟨t, ht, hcfg, hin, hst, hregs⟩ := complete_spec s ws
  refine ⟨.cont, t, ht, hcfg, hin, hst, fun hne => absurd rfl hne, fun j hj => ?_⟩
  unfold State.reg at hj ⊢
  rw [hregs] at hj ⊢
  exact hws _ (mem_of_read_writeAll_ne ws s.regs j hj)

theorem answersWithin_complete_one {j : RegIdx} {v : Word} (h : W j v) : AnswersWithin s W (complete s [(j, v)]) :=
  answersWithin_complete (List.forall_mem_singleton.mpr h)

theorem answersWithin_withReg {f : Field} {k : RegIdx → Result}
    (h : ∀ hf : f.toNat < rCount, AnswersWithin s W (k (regOf f hf))) : AnswersWithin s W (withReg f s k) := by
  rcases withReg_cases f s k with ⟨-, e⟩ | ⟨hf, e⟩
  · exact e ▸ answersWithin_raise _
  · exact e ▸ h hf

theorem answersWithin_withRegs2 {f g : Field} {k : RegIdx → RegIdx → Result}
    (h : ∀ (hf : f.toNat < rCount) (hg : g.toNat < rCount), AnswersWithin s W (k (regOf f hf) (regOf g hg))) :
    AnswersWithin s W (withRegs2 f g s k) :=
  answersWithin_withReg fun hf => answersWithin_withReg fun hg => h hf hg

theorem answersWithin_withRegs3 {f g d : Field} {k : RegIdx → RegIdx → RegIdx → Result}
    (h : ∀ (hf : f.toNat < rCount) (hg : g.toNat < rCount) (hd : d.toNat < rCount),
      AnswersWithin s W (k (regOf f hf) (regOf g hg) (regOf d hd))) :
    AnswersWithin s W (withRegs3 f g d s k) :=
  answersWithin_withReg fun hf => answersWithin_withRegs2 fun hg hd => h hf hg hd

end

/-! ### The answers of the instruction families -/

section
variable {s : State} {i : Instr}

theorem answersWithin_writeDest {f : Field} (hdest : i.destField = some f) (hf : f.toNat < rCount) (v : Word) :
    AnswersWithin s (CanWrite s.config i) (complete s [(regOf f hf, v)]) :=
  answersWithin_complete_one (.named f hdest rfl)

theorem answersWithin_jumpTo (hdest : implicitDest s.config i = some s.config.idxPc) (v : Word) :
    AnswersWithin s (CanWrite s.config i) (jumpTo s v) :=
  answersWithin_complete_one (.implicit hdest (.pc v))

theorem answersWithin_jumpToIf (hdest : implicitDest s.config i = some s.config.idxPc) (c : Bool) (v : Word) :
    AnswersWithin s (CanWrite s.config i) (jumpToIf c s v) := by
  cases c with
  | true => exact answersWithin_jumpTo hdest v
  | false => exact answersWithin_complete (List.forall_mem_nil _)

end

/-- RRDIV writes its DR by name and `R_RMDR` implicitly, also when the two are one register (R131). -/
theorem answersWithin_execRrdiv (s : State) (r1 r2 dr : Field) :
    AnswersWithin s (CanWrite s.config (.rrdiv r1 r2 dr)) (execRrdiv r1 r2 dr s) := by
  refine answersWithin_withRegs3 fun h1 h2 hd => ?_
  have hquot (q : Word) : CanWrite s.config (.rrdiv r1 r2 dr) (regOf dr hd) q := .named dr rfl rfl
  have hrmdr (r : Word) : CanWrite s.config (.rrdiv r1 r2 dr) s.config.idxRmdr r := .implicit rfl (.rmdr r)
  split
  · exact answersWithin_raise _
  · rcases divWrites_cases s.config (regOf dr hd) (s.reg (regOf r1 h1) / s.reg (regOf r2 h2))
      (s.reg (regOf r1 h1) % s.reg (regOf r2 h2)) with ⟨-, e⟩ | ⟨-, -, e⟩ | ⟨-, -, e⟩ <;> rw [e]
    · exact answersWithin_complete (List.forall_mem_cons.mpr ⟨hquot _, List.forall_mem_singleton.mpr (hrmdr _)⟩)
    · exact answersWithin_complete_one (hrmdr _)
    · exact answersWithin_complete_one (hrmdr _)

/-- Every instruction, in every state, answers with one status and changes only what it can write. -/
theorem answersWithin_exec (i : Instr) (s : State) : AnswersWithin s (CanWrite s.config i) (exec i s) := by
  cases i with
  | opNthng | opCease | opIlegl => exact answersWithin_reserve _
  | rload dr imm => exact answersWithin_withReg fun hd => answersWithin_writeDest rfl hd _
  | rradd r1 r2 dr | rrsub r1 r2 dr | rrmux r1 r2 dr =>
    exact answersWithin_withRegs3 fun _ _ hd => answersWithin_writeDest rfl hd _
  | rrdiv r1 r2 dr => exact answersWithin_execRrdiv s r1 r2 dr
  | jumpa imm | jumpf imm | jumpb imm => exact answersWithin_jumpTo rfl _
  | rjmpa reg | rjmpf reg | rjmpb reg => exact answersWithin_withReg fun _ => answersWithin_jumpTo rfl _
  | rreql r1 r2 | rrnql r1 r2 | rrgte r1 r2 | rrlte r1 r2 | rrgtx r1 r2 | rrltx r1 r2 =>
    exact answersWithin_withRegs2 fun _ _ => answersWithin_complete_one (.implicit rfl (.cond _))
  | rrcmp r1 r2 =>
    exact answersWithin_withRegs2 fun _ _ => answersWithin_complete_one (.implicit rfl (.comp _ _))
  | rjmpq reg | rjmpn reg => exact answersWithin_withReg fun _ => answersWithin_jumpToIf rfl _ _
  | jumpq imm | jumpn imm => exact answersWithin_jumpToIf rfl _ _

end Sys2Proof.Machine

namespace Sys2Proof

open Machine

/-- Settles O12, from the answer of every instruction (`answersWithin_exec`) with the written values forgotten. -/
theorem onlyNamedOrImplicitRegistersChange : Obligations.OnlyNamedOrImplicitRegistersChange := fun i s =>
  (answersWithin_exec i s).mono fun _ _ => CanWrite.mayWrite

end Sys2Proof
end

section
/-! What one step can do to one register, and the value invariants of 10_state.md R33, each by one step lemma. -/

namespace Sys2Proof.Machine

/-! ### One register across a step -/

/-- How register `j` can come to hold a value after a step from `s`: it is kept, a queued cycle resets it, a queued
instruction names it as DR, or the value is one that reaches it implicitly. -/
inductive RegAfter (s : State) (j : RegIdx) : Word → Prop
  | kept : RegAfter s j (s.reg j)
  | reset {c : PortsIn} (hc : c ∈ s.inputs) (hrst : c.rst = true) : RegAfter s j 0
  | named {c : PortsIn} {v : Word} (hc : c ∈ s.inputs) (hdest : NamesDest s.config j c) : RegAfter s j v
  | implicit {v : Word} (hv : ImplicitWrite s.config j v) : RegAfter s j v

/-- A presented word changes a register only as the instruction it decodes to can; a word without one changes none. -/
theorem answersWithin_present (w : Word) (s : State) :
    AnswersWithin s (fun j v => ∃ i, decode s.config w = .ok i ∧ CanWrite s.config i j v) (present w s) := by
  cases h : decode s.config w with
  | ok i =>
    rw [present_ok h]
    exact (answersWithin_exec i s).mono fun _ _ hw => ⟨i, rfl, hw⟩
  | error e =>
    obtain ⟨b⟩ := e
    rw [present_error h]
    exact answersWithin_raise _

/-- Everything a step can do to the configuration, the driver's queue and the registers. -/
theorem step_spec {s t : State} (h : step s = .next t) :
    t.config = s.config ∧ t.inputs = s.inputs.tail ∧ ∀ j, RegAfter s j (t.reg j) := by
  rcases step_cases s with ⟨hin, hs⟩ | ⟨c, rest, hin, ⟨hrst, hs⟩ | ⟨-, -, hs⟩ | ⟨hrst, hvalid, hs⟩⟩
  case inl =>
    obtain rfl := Host.Outcome.next.inj (hs.symm.trans h)
    exact ⟨rfl, by simp [hin], fun _ => .kept⟩
  all_goals have hc : c ∈ s.inputs := hin ▸ List.mem_cons_self
  case inr.inl =>
    obtain rfl := Host.Outcome.next.inj (hs.symm.trans h)
    refine ⟨rfl, by simp [hin], fun j => ?_⟩
    have hzero : (State.applyReset { s with inputs := rest }).reg j = 0 := read_zero j
    exact hzero ▸ .reset hc hrst
  case inr.inr.inl =>
    obtain rfl := Host.Outcome.next.inj (hs.symm.trans h)
    exact ⟨rfl, by simp [hin], fun _ => .kept⟩
  case inr.inr.inr =>
    obtain ⟨st, u, hu, hcfg, hrest, -, -, hreg⟩ := answersWithin_present c.instrWord { s with inputs := rest }
    obtain rfl := Host.Outcome.next.inj ((hs.trans hu).symm.trans h)
    refine ⟨hcfg, by simp [hrest, hin], fun j => ?_⟩
    by_cases hj : u.reg j = s.reg j
    · exact hj ▸ .kept
    · obtain ⟨i, hdec, hw⟩ := hreg j hj
      cases hw with
      | named f hdest hf => exact .named hc ⟨hrst, hvalid, i, f, hdec, hdest, hf⟩
      | implicit _ hv => exact .implicit hv

/-- The step lemma behind R33: a register that no queued instruction names as DR keeps a property that every value
reaching it implicitly has, and that 0 has if the driver resets the machine. -/
theorem step_keeps_value {s t : State} {j : RegIdx} {P : Word → Prop}
    (himplicit : ∀ v, ImplicitWrite s.config j v → P v) (hreset : ∀ c ∈ s.inputs, c.rst = true → P 0)
    (hdest : ∀ c ∈ s.inputs, ¬ NamesDest s.config j c) (hP : P (s.reg j)) (h : step s = .next t) : P (t.reg j) := by
  obtain ⟨-, -, hreg⟩ := step_spec h
  have after : ∀ v, RegAfter s j v → P v := fun v hv => by
    cases hv with
    | kept => exact hP
    | reset hc hrst => exact hreset _ hc hrst
    | named hc hnames => exact absurd hnames (hdest _ hc)
    | implicit hv => exact himplicit _ hv
  exact after _ (hreg j)

/-- What holds of every queued cycle under a configuration still does after a step. -/
theorem step_keeps_queued {s t : State} {Q : Config → PortsIn → Prop} (hQ : ∀ c ∈ s.inputs, Q s.config c)
    (h : step s = .next t) : ∀ c ∈ t.inputs, Q t.config c := by
  obtain ⟨hcfg, hin, -⟩ := step_spec h
  rw [hcfg, hin]
  exact fun c hc => hQ c (List.mem_of_mem_tail hc)

/-! ### The values that reach `R_COND` and `R_COMP` implicitly -/

/-- Distinct special registers (R6), as they are needed here: no implicit write meant for another one reaches `R_COND`
or `R_COMP`. -/
theorem specials_ne {cfg : Config} (h : cfg.Admissible) :
    cfg.idxPc ≠ cfg.idxCond ∧ cfg.idxPc ≠ cfg.idxComp ∧ cfg.idxRmdr ≠ cfg.idxCond ∧ cfg.idxRmdr ≠ cfg.idxComp ∧
      cfg.idxCond ≠ cfg.idxComp := by
  obtain ⟨-, -, hnodup, -⟩ := h
  simp only [Config.specials, List.nodup_cons, List.mem_cons, List.not_mem_nil, or_false, not_or] at hnodup
  obtain ⟨⟨-, hpcCond, hpcComp⟩, ⟨hrmdrCond, hrmdrComp⟩, hcondComp, -⟩ := hnodup
  exact ⟨hpcCond, hpcComp, hrmdrCond, hrmdrComp, hcondComp⟩

theorem orderCode_code (a b : Word) : orderCode a b = 1 ∨ orderCode a b = 2 ∨ orderCode a b = 4 := by
  rcases orderCode_cases a b with ⟨-, e⟩ | ⟨-, e⟩ | ⟨-, e⟩
  · exact .inr (.inl e)
  · exact .inl e
  · exact .inr (.inr e)

theorem ImplicitWrite.flag {cfg : Config} (hadm : cfg.Admissible) {j : RegIdx} {v : Word} (h : ImplicitWrite cfg j v)
    (hj : j = cfg.idxCond) : v = 0 ∨ v = 1 := by
  obtain ⟨hpc, -, hrmdr, -, hcomp⟩ := specials_ne hadm
  cases h with
  | pc => exact absurd hj hpc
  | rmdr => exact absurd hj hrmdr
  | cond holds => exact flagWord_bit holds
  | comp => exact absurd hj.symm hcomp

theorem ImplicitWrite.code {cfg : Config} (hadm : cfg.Admissible) {j : RegIdx} {v : Word} (h : ImplicitWrite cfg j v)
    (hj : j = cfg.idxComp) : v = 1 ∨ v = 2 ∨ v = 4 := by
  obtain ⟨-, hpc, -, hrmdr, hcond⟩ := specials_ne hadm
  cases h with
  | pc => exact absurd hj hpc
  | rmdr => exact absurd hj hrmdr
  | cond => exact absurd hj hcond
  | comp a b => exact orderCode_code a b

/-! ### The invariants -/

theorem step_keeps_condInvariant {s t : State} (hs : CondInvariant s) (h : step s = .next t) : CondInvariant t := by
  obtain ⟨hadm, hval, hqueue⟩ := hs
  obtain ⟨hcfg, -, -⟩ := step_spec h
  have hflag : t.reg s.config.idxCond = 0 ∨ t.reg s.config.idxCond = 1 :=
    step_keeps_value (P := fun v => v = 0 ∨ v = 1) (fun _ hv => hv.flag hadm rfl) (fun _ _ _ => .inl rfl) hqueue hval h
  exact ⟨hcfg ▸ hadm, by simpa only [State.cond, hcfg] using hflag,
    step_keeps_queued (Q := fun cfg c => ¬ NamesDest cfg cfg.idxCond c) hqueue h⟩

theorem step_keeps_compInvariant {s t : State} (hs : CompInvariant s) (h : step s = .next t) : CompInvariant t := by
  obtain ⟨hadm, hval, hqueue⟩ := hs
  obtain ⟨hcfg, -, -⟩ := step_spec h
  have hcode : t.reg s.config.idxComp = 0 ∨ t.reg s.config.idxComp = 1 ∨ t.reg s.config.idxComp = 2 ∨
      t.reg s.config.idxComp = 4 :=
    step_keeps_value (P := fun v => v = 0 ∨ v = 1 ∨ v = 2 ∨ v = 4) (fun _ hv => .inr (hv.code hadm rfl))
      (fun _ _ _ => .inl rfl) hqueue hval h
  exact ⟨hcfg ▸ hadm, by simpa only [State.comp, hcfg] using hcode,
    step_keeps_queued (Q := fun cfg c => ¬ NamesDest cfg cfg.idxComp c) hqueue h⟩

theorem step_keeps_compWritten {s t : State} (hs : CompWritten s) (h : step s = .next t) : CompWritten t := by
  obtain ⟨hadm, hval, hqueue⟩ := hs
  obtain ⟨hcfg, -, -⟩ := step_spec h
  have hnoreset : ∀ c ∈ s.inputs, c.rst ≠ true := fun c hc => by simp [(hqueue c hc).1]
  have hcode : t.reg s.config.idxComp = 1 ∨ t.reg s.config.idxComp = 2 ∨ t.reg s.config.idxComp = 4 :=
    step_keeps_value (P := fun v => v = 1 ∨ v = 2 ∨ v = 4) (fun _ hv => hv.code hadm rfl)
      (fun c hc hrst => absurd hrst (hnoreset c hc)) (fun c hc => (hqueue c hc).2) hval h
  exact ⟨hcfg ▸ hadm, by simpa only [State.comp, hcfg] using hcode,
    step_keeps_queued (Q := fun cfg c => c.rst = false ∧ ¬ NamesDest cfg cfg.idxComp c) hqueue h⟩

/-- A completed RRCMP is not one that reported an invalid field, so it has written one of the three codes (R162). -/
theorem comp_after_rrcmp {s t : State} {r1 r2 : Field} (h : exec (.rrcmp r1 r2) s = .next t)
    (hst : t.statuses = s.statuses ++ [.cont]) : t.comp = 1 ∨ t.comp = 2 ∨ t.comp = 4 := by
  rcases withRegs2_cases r1 r2 s (fun a b => complete s [(s.config.idxComp, orderCode (s.reg a) (s.reg b))]) with
    ⟨f, -, e⟩ | ⟨h1, h2, e⟩
  · obtain rfl : s.report (.invalidRegister f) = t := Host.Outcome.next.inj (e.symm.trans h)
    simp at hst
  · obtain ⟨u, hu, hcfg, -, -, hregs⟩ :=
      complete_spec s [(s.config.idxComp, orderCode (s.reg (regOf r1 h1)) (s.reg (regOf r2 h2)))]
    obtain rfl := Host.Outcome.next.inj ((e.trans hu).symm.trans h)
    have hcomp : u.comp = orderCode (s.reg (regOf r1 h1)) (s.reg (regOf r2 h2)) := by
      simp [State.comp, State.reg, hcfg, hregs]
    exact hcomp ▸ orderCode_code _ _

/-! ### Reset -/

@[simp] theorem reset_reg (j : RegIdx) : State.reset.reg j = 0 := read_zero j

theorem condInvariant_reset : CondInvariant State.reset :=
  ⟨defaultParametersAreAdmissible, .inl (reset_reg _), List.forall_mem_nil _⟩

theorem compInvariant_reset : CompInvariant State.reset :=
  ⟨defaultParametersAreAdmissible, .inl (reset_reg _), List.forall_mem_nil _⟩

end Sys2Proof.Machine

namespace Sys2Proof

open Machine

/-- Settles O17: only a flag reaches `R_COND` when no queued instruction names it, and a reset makes it 0. -/
theorem condStaysAFlag : Obligations.CondStaysAFlag := fun _ _ => step_keeps_condInvariant

/-- Settles O18: only a comparison code reaches `R_COMP` when no queued instruction names it, and a reset makes it 0. -/
theorem compStaysACode : Obligations.CompStaysACode := fun _ _ => step_keeps_compInvariant

/-- Settles O19: as O18, with no reset queued to bring the 0 back. -/
theorem compIsACodeAfterACompare : Obligations.CompIsACodeAfterACompare :=
  ⟨fun _ _ => step_keeps_compWritten, fun _ _ _ _ => comp_after_rrcmp⟩

/-- Settles O10, from the register file of zeros (R38) and the default indices (D2). -/
theorem everyRegisterIsZeroAfterReset : Obligations.EveryRegisterIsZeroAfterReset :=
  ⟨reset_reg, rfl, rfl, rfl, rfl⟩

/-- Settles O20: both registers are 0 and no cycle is queued at reset, under the default parameters (O6). -/
theorem resetSatisfiesTheInvariants : Obligations.ResetSatisfiesTheInvariants :=
  ⟨condInvariant_reset, compInvariant_reset⟩

end Sys2Proof
end

section
/-! The decoder and the encoder against each other (30_encoding.md R70 to R79). A word is its four bytes, so what a
mask keeps of a word is said byte by byte; a word decodes to an instruction exactly when the word's byte is the
instruction's name and the name's field roles make the instruction from the word's fields. -/

namespace Sys2Proof

open Machine

/-! ### A word and its views (R70 to R72) -/

/-- R72: the immediate is the fields B and C, and no part of A. -/
theorem decodeFields_imm16 (w : Word) : (decodeFields w).imm16 = (decodeFields w).b ++ (decodeFields w).c := by
  apply BitVec.eq_of_toNat_eq
  rw [decodeFields_imm16_toNat, appendField_toNat, decodeFields_b_toNat, decodeFields_c_toNat]
  omega

@[simp] theorem wordOf_decodeFields (w : Word) :
    wordOf (decodeFields w).opcode (decodeFields w).a (decodeFields w).b (decodeFields w).c = w := by
  apply BitVec.eq_of_toNat_eq
  rw [wordOf_toNat, decodeFields_opcode_toNat, decodeFields_a_toNat, decodeFields_b_toNat, decodeFields_c_toNat]
  omega

/-- R71: no two words have the same views, since the word can be rebuilt from them. -/
theorem decodeFields_injective : Function.Injective decodeFields := fun w w' h => by
  rw [← wordOf_decodeFields w, h, wordOf_decodeFields]

@[simp] theorem immHi_append (b c : Field) : immHi (b ++ c) = b := by
  have hc := c.isLt
  apply BitVec.eq_of_toNat_eq
  rw [immHi, BitVec.extractLsb'_toNat, appendField_toNat, Nat.shiftRight_eq_div_pow]
  omega

@[simp] theorem immLo_append (b c : Field) : immLo (b ++ c) = c := by
  have hc := c.isLt
  apply BitVec.eq_of_toNat_eq
  rw [immLo, BitVec.extractLsb'_toNat, appendField_toNat, Nat.shiftRight_eq_div_pow]
  omega

/-! ### Decoding (R79) -/

@[simp] theorem Opcode.opcode_instr (op : Opcode) (d : DecodedInstruction) : (op.instr d).opcode = op := by
  cases op <;> rfl

/-- What decoding to an instruction is, under an admissible numbering. -/
theorem decode_eq_ok_iff {cfg : Config} (h : cfg.Admissible) (w : Word) (i : Instr) :
    decode cfg w = .ok i ↔
      cfg.opcOf i.opcode = (decodeFields w).opcode ∧ i.opcode.instr (decodeFields w) = i := by
  unfold decode
  constructor
  · intro hdec
    split at hdec
    next op hop =>
      obtain rfl := Except.ok.inj hdec
      rw [Opcode.opcode_instr]
      exact ⟨(Config.opcodeOf_eq_some_iff h _ op).mp hop, rfl⟩
    next => cases hdec
  · rintro ⟨hop, hinstr⟩
    simp only [(Config.opcodeOf_eq_some_iff h _ _).mpr hop, hinstr]

/-- The per-constructor facts of `Laws.EncodedFields`, put together. -/
theorem encodedFields : ∀ i : Instr, Laws.EncodedFields.Statement i
  | .opNthng => Laws.EncodedFields.opNthng
  | .opCease => Laws.EncodedFields.opCease
  | .opIlegl => Laws.EncodedFields.opIlegl
  | .rload dr imm => Laws.EncodedFields.rload dr imm
  | .rradd r1 r2 dr => Laws.EncodedFields.rradd r1 r2 dr
  | .rrsub r1 r2 dr => Laws.EncodedFields.rrsub r1 r2 dr
  | .rrmux r1 r2 dr => Laws.EncodedFields.rrmux r1 r2 dr
  | .rrdiv r1 r2 dr => Laws.EncodedFields.rrdiv r1 r2 dr
  | .jumpa imm => Laws.EncodedFields.jumpa imm
  | .jumpf imm => Laws.EncodedFields.jumpf imm
  | .jumpb imm => Laws.EncodedFields.jumpb imm
  | .rjmpa reg => Laws.EncodedFields.rjmpa reg
  | .rjmpf reg => Laws.EncodedFields.rjmpf reg
  | .rjmpb reg => Laws.EncodedFields.rjmpb reg
  | .rreql r1 r2 => Laws.EncodedFields.rreql r1 r2
  | .rrnql r1 r2 => Laws.EncodedFields.rrnql r1 r2
  | .rrgte r1 r2 => Laws.EncodedFields.rrgte r1 r2
  | .rrlte r1 r2 => Laws.EncodedFields.rrlte r1 r2
  | .rrgtx r1 r2 => Laws.EncodedFields.rrgtx r1 r2
  | .rrltx r1 r2 => Laws.EncodedFields.rrltx r1 r2
  | .rrcmp r1 r2 => Laws.EncodedFields.rrcmp r1 r2
  | .rjmpq reg => Laws.EncodedFields.rjmpq reg
  | .rjmpn reg => Laws.EncodedFields.rjmpn reg
  | .jumpq imm => Laws.EncodedFields.jumpq imm
  | .jumpn imm => Laws.EncodedFields.jumpn imm

/-- R75, R76: decoding is a left inverse of encoding. -/
theorem decode_encode {cfg : Config} (h : cfg.Admissible) (i : Instr) : decode cfg (encode cfg i) = .ok i := by
  obtain ⟨hop, hinstr⟩ := encodedFields i cfg
  exact (decode_eq_ok_iff h _ i).mpr ⟨hop.symm, hinstr⟩

theorem encode_injective {cfg : Config} (h : cfg.Admissible) : Function.Injective (encode cfg) := fun i j e =>
  Except.ok.inj ((decode_encode h i).symm.trans (e ▸ decode_encode h j))

/-! ### The bits an instruction uses (R73, R77) -/

theorem wordOf_and_wordOf (o a b c o' a' b' c' : Field) :
    wordOf o a b c &&& wordOf o' a' b' c' = wordOf (o &&& o') (a &&& a') (b &&& b') (c &&& c') := by
  change (o ++ a ++ b ++ c) &&& (o' ++ a' ++ b' ++ c') = (o &&& o') ++ (a &&& a') ++ (b &&& b') ++ (c &&& c')
  simp only [BitVec.and_append]

/-- The byte of ones, in the form `simp` gives it. -/
@[simp] theorem field_and_ones (f : Field) : f &&& 255#8 = f := BitVec.and_allOnes

/-- A mask that keeps the opcode byte, byte by byte. -/
theorem and_wordOf_ones (w : Word) (a b c : Field) :
    w &&& wordOf 0xFF a b c =
      wordOf (decodeFields w).opcode ((decodeFields w).a &&& a) ((decodeFields w).b &&& b)
        ((decodeFields w).c &&& c) := by
  have hand := wordOf_and_wordOf (decodeFields w).opcode (decodeFields w).a (decodeFields w).b (decodeFields w).c
    0xFF a b c
  simpa using hand

/-- The used bits depend on the opcode alone. -/
theorem usedMask_instr_opcode (i : Instr) (d : DecodedInstruction) : usedMask (i.opcode.instr d) = usedMask i := by
  cases i <;> rfl

/-- What a name's mask keeps of a word: its opcode byte, and the fields from which the name makes its instruction. -/
theorem and_usedMask_instr (w : Word) (op : Opcode) :
    w &&& usedMask (op.instr (decodeFields w)) =
      wordOf (decodeFields w).opcode (op.instr (decodeFields w)).fields.1 (op.instr (decodeFields w)).fields.2.1
        (op.instr (decodeFields w)).fields.2.2 := by
  cases op
  case opNthng | opCease | opIlegl =>
    refine (and_wordOf_ones w 0 0 0).trans ?_
    simp [Opcode.instr, Instr.fields]
  case rjmpa | rjmpf | rjmpb | rjmpq | rjmpn =>
    refine (and_wordOf_ones w 0xFF 0 0).trans ?_
    simp [Opcode.instr, Instr.fields]
  case rreql | rrnql | rrgte | rrlte | rrgtx | rrltx | rrcmp =>
    refine (and_wordOf_ones w 0xFF 0xFF 0).trans ?_
    simp [Opcode.instr, Instr.fields]
  case jumpa | jumpf | jumpb | jumpq | jumpn =>
    refine (and_wordOf_ones w 0 0xFF 0xFF).trans ?_
    simp [Opcode.instr, Instr.fields, decodeFields_imm16]
  case rload =>
    refine (and_wordOf_ones w 0xFF 0xFF 0xFF).trans ?_
    simp [Opcode.instr, Instr.fields, decodeFields_imm16]
  case rradd | rrsub | rrmux | rrdiv =>
    refine (and_wordOf_ones w 0xFF 0xFF 0xFF).trans ?_
    simp [Opcode.instr, Instr.fields]

/-- R73, R77: a word decodes to an instruction exactly when its used bits are those of the canonical encoding. -/
theorem decode_eq_ok_iff_and_usedMask {cfg : Config} (h : cfg.Admissible) (i : Instr) (w : Word) :
    decode cfg w = .ok i ↔ w &&& usedMask i = encode cfg i := by
  have hmask := and_usedMask_instr w i.opcode
  rw [usedMask_instr_opcode] at hmask
  rw [decode_eq_ok_iff h]
  constructor
  · rintro ⟨hop, hinstr⟩
    rw [hmask, hinstr, ← hop, encode]
  · intro e
    have hop : (decodeFields w).opcode = cfg.opcOf i.opcode := by
      rw [← (encodedFields i cfg).1, ← e, hmask, decodeFields_wordOf_opcode]
    refine ⟨hop.symm, encode_injective h ?_⟩
    rw [← e, hmask, encode, Opcode.opcode_instr, hop]

/-! ### The statements -/

/-- Settles O2, from the field roles read back from every canonical word (`encodedFields`). -/
theorem decodeOfEncodeIsTheInstruction : Obligations.DecodeOfEncodeIsTheInstruction := fun _ h => decode_encode h

/-- Settles O3: the used bits of a word are the canonical word of what its fields make, and encoding is injective. -/
theorem unusedFieldsAreIgnoredAndNoOthers : Obligations.UnusedFieldsAreIgnoredAndNoOthers := fun _ h =>
  decode_eq_ok_iff_and_usedMask h

/-- Settles O1, from the weights of the five views and the word rebuilt from four of them. -/
theorem decoderSlicesTheWord : Obligations.DecoderSlicesTheWord :=
  ⟨fun w => ⟨decodeFields_opcode_toNat w, decodeFields_a_toNat w, decodeFields_b_toNat w, decodeFields_c_toNat w,
    decodeFields_imm16 w, decodeFields_imm16_toNat w, (wordOf_decodeFields w).symm⟩,
   fun _ _ h => decodeFields_injective h⟩

/-- Settles O5: each word's byte is its instruction's under the default numbering (D1), and its fields make it. -/
theorem sampleWordsDecode : Obligations.SampleWordsDecode := by
  have decodes (w : Word) (i : Instr) := (decode_eq_ok_iff defaultParametersAreAdmissible w i).mpr
  and_intros <;> exact decodes _ _ ⟨rfl, rfl⟩

end Sys2Proof
end

section
/-! What a clock edge does by its input ports, and runs of many steps (40_dispatch.md R101 to R112): no step stops the
machine, an error leaves only its status, and a list of presented words is used up with one status each. -/

namespace Sys2Proof.Machine

/-! ### One step, by the input ports -/

/-- R112: a word presented with `rst` low runs from the state with the cycle taken off the queue. -/
theorem step_presented {s : State} {c : PortsIn} {rest : List PortsIn} (hin : s.inputs = c :: rest)
    (hrst : c.rst = false) (hvalid : c.instrValid = true) :
    step s = present c.instrWord { s with inputs := rest } := by
  simp [step_cycle s c rest hin, clockEdge, hrst, hvalid]

/-- R112: without a word and without reset the cycle only passes. -/
theorem step_no_word {s : State} {c : PortsIn} {rest : List PortsIn} (hin : s.inputs = c :: rest)
    (hrst : c.rst = false) (hvalid : c.instrValid = false) : step s = .next { s with inputs := rest } := by
  simp [step_cycle s c rest hin, clockEdge, hrst, hvalid]

theorem step_withWord (s : State) (w : Word) : step (s.withWord w) = present w s := rfl

@[simp] theorem withWords_nil (s : State) : s.withWords [] = s := rfl

theorem step_withWords_cons (s : State) (w : Word) (ws : List Word) :
    step (s.withWords (w :: ws)) = present w (s.withWords ws) := rfl

/-- A state whose queue begins with the words is one with the words presented. -/
theorem eq_withWords {s : State} {ws : List Word} {rest : List PortsIn} (h : s.inputs = ws.map PortsIn.word ++ rest) :
    s = State.withWords { s with inputs := rest } ws := by
  simp only [State.withWords, ← h]

/-! ### No answer stops the machine, and an error leaves only its status -/

theorem AnswersWithin.exists_next {s : State} {W : RegIdx → Word → Prop} {a : Result} (h : AnswersWithin s W a) :
    ∃ t, a = .next t := by
  obtain ⟨-, t, ha, -⟩ := h
  exact ⟨t, ha⟩

/-- An answer with an error is the state it was given in with that error reported (R105, R109). -/
theorem AnswersWithin.eq_report {s t : State} {W : RegIdx → Word → Prop} {e : Status}
    (h : AnswersWithin s W (.next t)) (hst : t.statuses = s.statuses ++ [e]) (he : e ≠ .cont) : t = s.report e := by
  obtain ⟨st, u, hu, hcfg, hin, hu_st, hregs, -⟩ := h
  obtain rfl := Host.Outcome.next.inj hu
  obtain rfl : st = e := by simpa [hu_st] using hst
  obtain ⟨cfg, regs, inputs, statuses⟩ := t
  obtain rfl : regs = s.regs := hregs he
  obtain rfl : cfg = s.config := hcfg
  obtain rfl : inputs = s.inputs := hin
  obtain rfl : statuses = s.statuses ++ [st] := hu_st
  rfl

theorem step_exists_next (s : State) : ∃ t, step s = .next t := by
  rcases step_cases s with ⟨-, hs⟩ | ⟨c, rest, -, ⟨-, hs⟩ | ⟨-, -, hs⟩ | ⟨-, -, hs⟩⟩
  · exact ⟨_, hs⟩
  · exact ⟨_, hs⟩
  · exact ⟨_, hs⟩
  · exact hs ▸ (answersWithin_present c.instrWord { s with inputs := rest }).exists_next

/-! ### Runs -/

theorem runsSafely (n : Nat) (s : State) : RunsSafely n s := by
  induction n generalizing s with
  | zero => exact ⟨s, rfl⟩
  | succ n ih =>
    obtain ⟨t, ht⟩ := step_exists_next s
    obtain ⟨u, hu⟩ := ih t
    exact ⟨u, (run_succ n ht).trans hu⟩

/-- A run over presented words uses them up, appends one status per word, and changes no register if every one of these
statuses is an error. -/
theorem run_withWords_spec (ws : List Word) (s : State) :
    ∃ t, Host.Core.run core ws.length (s.withWords ws) = .next t ∧ t.inputs = s.inputs ∧
      ∃ sts : List Status, sts.length = ws.length ∧ t.statuses = s.statuses ++ sts ∧
        ((∀ st ∈ sts, st ≠ .cont) → t.regs = s.regs) := by
  induction ws generalizing s with
  | nil => exact ⟨s, rfl, rfl, [], rfl, by simp, fun _ => rfl⟩
  | cons w ws ih =>
    obtain ⟨st, u, hu, -, hu_in, hu_st, hu_err, -⟩ := answersWithin_present w (s.withWords ws)
    obtain ⟨t, ht, ht_in, sts, hlen, ht_st, ht_err⟩ := ih { u with inputs := s.inputs }
    rw [← eq_withWords hu_in] at ht
    have hrun := (run_succ ws.length ((step_withWords_cons s w ws).trans hu)).trans ht
    refine ⟨t, hrun, ht_in, st :: sts, by simp [hlen], ?_, fun herr => ?_⟩
    · calc t.statuses = u.statuses ++ sts := ht_st
        _ = (s.statuses ++ [st]) ++ sts := congrArg (· ++ sts) hu_st
        _ = s.statuses ++ st :: sts := by simp
    · obtain ⟨hst, hsts⟩ := List.forall_mem_cons.mp herr
      exact (ht_err hsts).trans (hu_err hst)

end Sys2Proof.Machine

namespace Sys2Proof

open Machine

/-- Settles O11: every step answers a next state, and what answers an error has only reported it. -/
theorem noStatusStopsTheMachine : Obligations.NoStatusStopsTheMachine := by
  refine ⟨runsSafely, fun s t w e hstep hst he => ?_⟩
  have hanswer := answersWithin_present w s
  rw [← step_withWord, hstep] at hanswer
  exact hanswer.eq_report hst he

/-- Settles O13, from what a step can do to the queue and the configuration (`step_spec`). -/
theorem noStepChangesTheWordsToCome : Obligations.NoStepChangesTheWordsToCome := fun _ _ h => by
  obtain ⟨hcfg, hin, -⟩ := step_spec h
  exact ⟨hin, hcfg⟩

/-- Settles O14, by induction on the words (`run_withWords_spec`). -/
theorem oneStatusPerWord : Obligations.OneStatusPerWord := fun ws s => by
  obtain ⟨t, hrun, hin, sts, hlen, hst, -⟩ := run_withWords_spec ws s
  exact ⟨t, hrun, hin, sts, hlen, hst⟩

/-- Settles O7: the cycle presents its word, and presenting a word that decodes runs the instruction. -/
theorem stepRunsTheDecodedInstruction : Obligations.StepRunsTheDecodedInstruction :=
  fun _ _ _ _ hin hrst hvalid hdec => (step_presented hin hrst hvalid).trans (present_ok hdec)

/-- Settles O9, from the cycle without a word and the empty queue. -/
theorem idleCycleHoldsTheState : Obligations.IdleCycleHoldsTheState :=
  ⟨fun _ _ _ => step_no_word, step_idle⟩

end Sys2Proof
end

section
/-! Validation of the register fields (40_dispatch.md R106 to R108): every instruction checks its fields in the order A,
B, C before anything else, and reports `InvalidRegister` for nothing but the first that names no register. -/

namespace Sys2Proof.Machine

/-- The answer, in state `s`, of an instruction that has the fields `fs` still to check: a field that names no register
is reported at once; past the last field one status is handed back, and it is no `InvalidRegister`. -/
inductive Validated (s : State) : List Field → Result → Prop
  | invalid {f : Field} {fs : List Field} (hf : rCount ≤ f.toNat) :
      Validated s (f :: fs) (raise s (.invalidRegister f))
  | valid {f : Field} {fs : List Field} {a : Result} (hf : f.toNat < rCount) (hrest : Validated s fs a) :
      Validated s (f :: fs) a
  | passed {t : State} {st : Status} (hst : t.statuses = s.statuses ++ [st])
      (hne : ∀ f, st ≠ .invalidRegister f) : Validated s [] (.next t)

/-! ### What a validated answer is -/

/-- The first field that names no register is the one reported, and nothing else happens. -/
theorem Validated.eq_raise {s : State} {fs : List Field} {a : Result} (h : Validated s fs a) {e : Field}
    (he : fs.find? (fun g => decide (rCount ≤ g.toNat)) = some e) : a = raise s (.invalidRegister e) := by
  induction h with
  | @invalid f _ hf =>
    rw [List.find?_cons_of_pos (by simpa using hf)] at he
    rw [Option.some.inj he]
  | valid hf _ ih =>
    rw [List.find?_cons_of_neg (by simpa using hf)] at he
    exact ih he
  | passed => cases he

theorem Validated.ne_invalidRegister {s : State} {fs : List Field} {a : Result} (h : Validated s fs a)
    (hfs : ∀ f ∈ fs, Field.NamesRegister f) {t : State} (ha : a = .next t) (e : Field) :
    t.statuses ≠ s.statuses ++ [.invalidRegister e] := by
  induction h with
  | invalid hf => exact absurd (hfs _ List.mem_cons_self) (Nat.not_lt.mpr hf)
  | valid _ _ ih => exact ih (List.forall_mem_cons.mp hfs).2 ha
  | passed hst hne =>
    obtain rfl := Host.Outcome.next.inj ha
    rw [hst]
    simpa using hne e

/-- Raising an error is failing with it: every register keeps its value (R194). -/
theorem failsWith_of_exec_eq_raise {i : Instr} {s : State} {e : Status} (h : exec i s = raise s e) :
    FailsWith i s e :=
  ⟨s.report e, h, rfl, rfl, rfl, fun _ => rfl⟩

/-! ### The operand forms check their fields in order -/

section
variable {s : State}

theorem validated_withReg {f : Field} {fs : List Field} {k : RegIdx → Result}
    (h : ∀ hf : f.toNat < rCount, Validated s fs (k (regOf f hf))) : Validated s (f :: fs) (withReg f s k) := by
  rcases withReg_cases f s k with ⟨hf, e⟩ | ⟨hf, e⟩
  · exact e ▸ .invalid hf
  · exact e ▸ .valid hf (h hf)

theorem validated_withRegs2 {f g : Field} {fs : List Field} {k : RegIdx → RegIdx → Result}
    (h : ∀ a b, Validated s fs (k a b)) : Validated s (f :: g :: fs) (withRegs2 f g s k) :=
  validated_withReg fun _ => validated_withReg fun _ => h _ _

theorem validated_withRegs3 {f g d : Field} {fs : List Field} {k : RegIdx → RegIdx → RegIdx → Result}
    (h : ∀ a b c, Validated s fs (k a b c)) : Validated s (f :: g :: d :: fs) (withRegs3 f g d s k) :=
  validated_withReg fun _ => validated_withRegs2 fun _ _ => h _ _ _

/-! ### What runs past the fields reports no `InvalidRegister` -/

theorem validated_complete (ws : List (RegIdx × Word)) : Validated s [] (complete s ws) :=
  .passed (st := .cont) rfl (by simp)

theorem validated_jumpToIf (c : Bool) (v : Word) : Validated s [] (jumpToIf c s v) := by
  cases c with
  | true => exact validated_complete _
  | false => exact validated_complete _

theorem reservedStatusOf_ne_invalidRegister (cfg : Config) (op : Opcode) (f : Field) :
    reservedStatusOf cfg op ≠ .invalidRegister f := by
  cases h : cfg.reservedStatus <;> simp [reservedStatusOf, h]

theorem validated_reserve (op : Opcode) : Validated s [] (reserve op s) :=
  .passed rfl (reservedStatusOf_ne_invalidRegister s.config op)

/-- R108: RRDIV checks its divisor only once all three fields name registers. -/
theorem validated_execRrdiv (r1 r2 dr : Field) : Validated s [r1, r2, dr] (execRrdiv r1 r2 dr s) := by
  refine validated_withRegs3 fun _ _ _ => ?_
  split
  · exact .passed (st := .divisionByZero) rfl (by simp)
  · exact validated_complete _

end

/-- Every instruction checks exactly its register fields, in order. -/
theorem validated_exec (i : Instr) (s : State) : Validated s i.regFields (exec i s) := by
  cases i with
  | opNthng | opCease | opIlegl => exact validated_reserve _
  | rload dr imm => exact validated_withReg fun _ => validated_complete _
  | rradd r1 r2 dr | rrsub r1 r2 dr | rrmux r1 r2 dr => exact validated_withRegs3 fun _ _ _ => validated_complete _
  | rrdiv r1 r2 dr => exact validated_execRrdiv r1 r2 dr
  | jumpa imm | jumpf imm | jumpb imm => exact validated_complete _
  | rjmpa reg | rjmpf reg | rjmpb reg => exact validated_withReg fun _ => validated_complete _
  | rreql r1 r2 | rrnql r1 r2 | rrgte r1 r2 | rrlte r1 r2 | rrgtx r1 r2 | rrltx r1 r2 | rrcmp r1 r2 =>
    exact validated_withRegs2 fun _ _ => validated_complete _
  | rjmpq reg | rjmpn reg => exact validated_withReg fun _ => validated_jumpToIf _ _
  | jumpq imm | jumpn imm => exact validated_jumpToIf _ _

end Sys2Proof.Machine

namespace Sys2Proof

open Machine

/-- Settles O16: every instruction is validated by exactly its register fields (`validated_exec`). -/
theorem invalidRegisterExactlyWhenIllFormed : Obligations.InvalidRegisterExactlyWhenIllFormed := fun i s =>
  ⟨fun _ hfind => failsWith_of_exec_eq_raise ((validated_exec i s).eq_raise hfind),
   fun hwf _ f hexec => (validated_exec i s).ne_invalidRegister hwf hexec f⟩

end Sys2Proof
end

section
/-! The debug port (40_dispatch.md R110, R112): its index is checked as a register field is. -/

namespace Sys2Proof.Machine

variable (s : State) {idx : Field}

theorem dbgData_of_lt (h : idx.toNat < rCount) : s.dbgData idx = s.reg (regOf idx h) := by
  simp [State.dbgData, validReg_of_lt h]

theorem dbgData_of_ge (h : rCount ≤ idx.toNat) : s.dbgData idx = 0 := by
  simp [State.dbgData, validReg_of_ge h]

theorem portsOut_dbgValid_of_lt (h : idx.toNat < rCount) : (s.portsOut idx).dbgValid = true := by
  simp [State.portsOut, validReg_of_lt h]

theorem portsOut_dbgValid_of_ge (h : rCount ≤ idx.toNat) : (s.portsOut idx).dbgValid = false := by
  simp [State.portsOut, validReg_of_ge h]

end Sys2Proof.Machine

namespace Sys2Proof

open Machine

/-- Settles O49, by whether the debug index names a register. -/
theorem debugPortReadsTheRegisters : Obligations.DebugPortReadsTheRegisters := fun s _ =>
  ⟨fun h => ⟨dbgData_of_lt s h, portsOut_dbgValid_of_lt s h⟩,
   fun h => ⟨dbgData_of_ge s h, portsOut_dbgValid_of_ge s h⟩, rfl⟩

end Sys2Proof
end

section
/-! One instruction against its rule: what encodes it (30_encoding.md R73, R76), what its first register field may not
be (40_dispatch.md R106), and the register file after the single write of an instruction that completes (R104). -/

namespace Sys2Proof.Machine

/-! ### Encoding -/

/-- All five views at once of a word put together from four fields. -/
theorem decodeFields_wordOf (o a b c : Field) : decodeFields (wordOf o a b c) = ⟨o, a, b, c, b ++ c⟩ :=
  calc decodeFields (wordOf o a b c)
    _ = ⟨(decodeFields (wordOf o a b c)).opcode, (decodeFields (wordOf o a b c)).a, (decodeFields (wordOf o a b c)).b,
          (decodeFields (wordOf o a b c)).c, (decodeFields (wordOf o a b c)).imm16⟩ := rfl
    _ = ⟨o, a, b, c, b ++ c⟩ := by
      rw [decodeFields_wordOf_opcode, decodeFields_wordOf_a, decodeFields_wordOf_b, decodeFields_wordOf_c,
        decodeFields_wordOf_imm16]

/-- R79: a word that begins with a name's byte is the instruction the name makes of the other three fields. -/
theorem decode_wordOf_opcOf {cfg : Config} (h : cfg.Admissible) (op : Opcode) (a b c : Field) :
    decode cfg (wordOf (cfg.opcOf op) a b c) = .ok (op.instr ⟨cfg.opcOf op, a, b, c, b ++ c⟩) := by
  rw [decode_eq_ok_iff h, decodeFields_wordOf, Opcode.opcode_instr]
  exact ⟨rfl, rfl⟩

/-- An opcode's encoding is its default byte and the field roles of its instruction (R76). -/
theorem encodes_of_instr {op : Opcode} {byte : Field} {mk : Field → Field → Field → Instr}
    (hbyte : Config.spec.opcOf op = byte) (hmk : ∀ o a b c, op.instr ⟨o, a, b, c, b ++ c⟩ = mk a b c) :
    Encodes op byte mk :=
  ⟨hbyte, fun _ h a b c => hmk _ a b c ▸ decode_wordOf_opcOf h op a b c⟩

/-! ### Validation -/

/-- R106: the field checked first is reported if it names no register. -/
theorem validates1_of_regFields {i : Instr} {f : Field} {fs : List Field} (h : i.regFields = f :: fs) (s : State) :
    Validates1 i s f := by
  intro hf
  have hfirst : i.regFields.find? (fun g => decide (rCount ≤ g.toNat)) = some f := by
    rw [h, List.find?_cons_of_pos (by simpa using hf)]
  exact failsWith_of_exec_eq_raise ((validated_exec i s).eq_raise hfirst)

/-! ### Completion -/

/-- An instruction that completes with one write leaves that value in that register, and every other register as it
was. -/
theorem completes_of_exec_eq_complete_one {i : Instr} {s : State} {d : RegIdx} {v : Word}
    (h : exec i s = complete s [(d, v)]) : Completes i s fun j => if j = d then v else s.reg j := by
  obtain ⟨t, ht, hcfg, hin, hst, hregs⟩ := complete_spec s [(d, v)]
  refine ⟨t, h.trans ht, hcfg, hin, hst, fun j => ?_⟩
  calc t.reg j = (s.regs.write d v).read j := congrArg (RegFile.read · j) hregs
    _ = if j = d then v else s.reg j := read_write s.regs d j v

end Sys2Proof.Machine
end

section
/-! The load-immediate family (41_load_immediate.md). -/

namespace Sys2Proof.Machine

/-- R74: zero extension keeps the immediate's value as a number. -/
theorem zext32_eq_ofNat (imm : Imm) : zext32 imm = BitVec.ofNat 32 imm.toNat := (BitVec.ofNat_toNat 32 imm).symm

theorem exec_rload (dr : Field) (imm : Imm) (s : State) : exec (.rload dr imm) s = execRload dr imm s := rfl

/-- R120: with DR a register, RLOAD completes with the one write of its immediate. -/
theorem exec_rload_of_lt {dr : Field} (h : dr.toNat < rCount) (imm : Imm) (s : State) :
    exec (.rload dr imm) s = complete s [(regOf dr h, zext32 imm)] := by
  rw [exec_rload, execRload, withReg_of_lt h]

end Sys2Proof.Machine

namespace Sys2Proof

open Machine

/-- Settles O22: RLOAD's word has DR in A and the immediate in B and C; DR is its only register field; and its one write
is the zero-extended immediate. -/
theorem rloadLoadsTheImmediate : Obligations.RloadLoadsTheImmediate := by
  refine ⟨encodes_of_instr rfl fun _ _ _ _ => rfl, fun s dr imm => ⟨validates1_of_regFields rfl s, fun h => ?_⟩⟩
  rw [← zext32_eq_ofNat]
  exact completes_of_exec_eq_complete_one (exec_rload_of_lt h imm s)

end Sys2Proof
end

section
/-! One instruction against its rule, past its first register field and its first write: the later fields of
`validate(r1, r2, DR)` (40_dispatch.md R106), and the register file after any writes (R104). -/

namespace Sys2Proof.Machine

/-! ### Validation -/

/-- R106: a field that names no register is reported once every field before it names one. -/
theorem validates1_of_regFields_append {i : Instr} {fs gs : List Field} {f : Field} (h : i.regFields = fs ++ f :: gs)
    (hfs : ∀ g ∈ fs, Field.NamesRegister g) (s : State) : Validates1 i s f := by
  intro hf
  have hskip : fs.find? (fun g => decide (rCount ≤ g.toNat)) = none :=
    List.find?_eq_none.mpr fun g hg => by simpa using hfs g hg
  have hfirst : i.regFields.find? (fun g => decide (rCount ≤ g.toNat)) = some f := by
    rw [h, List.find?_append, hskip, Option.none_or, List.find?_cons_of_pos (by simpa using hf)]
  exact failsWith_of_exec_eq_raise ((validated_exec i s).eq_raise hfirst)

theorem validates2_of_regFields {i : Instr} {r1 r2 : Field} {fs : List Field} (h : i.regFields = r1 :: r2 :: fs)
    (s : State) : Validates2 i s r1 r2 :=
  ⟨validates1_of_regFields h s,
   fun h1 => validates1_of_regFields_append (fs := [r1]) h (List.forall_mem_singleton.mpr h1) s⟩

theorem validates3_of_regFields {i : Instr} {r1 r2 r3 : Field} {fs : List Field}
    (h : i.regFields = r1 :: r2 :: r3 :: fs) (s : State) : Validates3 i s r1 r2 r3 :=
  ⟨validates2_of_regFields h s, fun h1 h2 =>
    validates1_of_regFields_append (fs := [r1, r2]) h
      (List.forall_mem_cons.mpr ⟨h1, List.forall_mem_singleton.mpr h2⟩) s⟩

/-! ### Completion -/

/-- An instruction that completes with two writes leaves the later value in a register that both name. -/
theorem completes_of_exec_eq_complete_two {i : Instr} {s : State} {d e : RegIdx} {v w : Word}
    (h : exec i s = complete s [(d, v), (e, w)]) :
    Completes i s fun j => if j = e then w else if j = d then v else s.reg j := by
  obtain ⟨t, ht, hcfg, hin, hst, hregs⟩ := complete_spec s [(d, v), (e, w)]
  refine ⟨t, h.trans ht, hcfg, hin, hst, fun j => ?_⟩
  calc t.reg j = ((s.regs.write d v).write e w).read j := congrArg (RegFile.read · j) hregs
    _ = if j = e then w else (s.regs.write d v).read j := read_write _ e j w
    _ = if j = e then w else if j = d then v else s.reg j := by rw [read_write s.regs d j v]; rfl

/-- The answer of an instruction known to complete. -/
theorem Completes.of_exec_eq {i : Instr} {s t : State} {after : RegIdx → Word} (h : Completes i s after)
    (ht : exec i s = .next t) : t.config = s.config ∧ ∀ j, t.reg j = after j := by
  obtain ⟨u, hu, hcfg, -, -, hreg⟩ := h
  obtain rfl : u = t := Host.Outcome.next.inj (hu.symm.trans ht)
  exact ⟨hcfg, hreg⟩

/-- An instruction that failed has handed back its error and no other status. -/
theorem FailsWith.statuses_of_exec_eq {i : Instr} {s t : State} {e : Status} (h : FailsWith i s e)
    (ht : exec i s = .next t) : t.statuses = s.statuses ++ [e] := by
  obtain ⟨u, hu, -, -, hst, -⟩ := h
  obtain rfl : u = t := Host.Outcome.next.inj (hu.symm.trans ht)
  exact hst

/-- Fields that differ name different registers (R74). -/
theorem regOf_ne {f g : Field} (h : f ≠ g) (hf : f.toNat < rCount) (hg : g.toNat < rCount) :
    regOf f hf ≠ regOf g hg :=
  fun e => h (BitVec.eq_of_toNat_eq (Fin.mk.inj e))

end Sys2Proof.Machine
end

section
/-! The arithmetic family (42_arithmetic.md). Each instruction is said once on words (`completes_rradd` and so on); the
rules, which speak of numbers modulo 2^32, follow by the value of the word operation. -/

namespace Sys2Proof.Machine

/-! ### The word operations as numbers (R129) -/

theorem eq_ofNat_of_toNat_eq {v : Word} {n : Nat} (h : v.toNat = n) : v = BitVec.ofNat 32 n := by
  rw [← h, BitVec.ofNat_toNat, BitVec.setWidth_eq]

theorem add_eq_ofNat (x y : Word) : x + y = BitVec.ofNat 32 ((x.toNat + y.toNat) % 2 ^ 32) :=
  eq_ofNat_of_toNat_eq (BitVec.toNat_add x y)

theorem sub_eq_ofNat (x y : Word) : x - y = BitVec.ofNat 32 ((x.toNat + 2 ^ 32 - y.toNat) % 2 ^ 32) := by
  have hy : y.toNat < 2 ^ 32 := y.isLt
  have hcomm : 2 ^ 32 - y.toNat + x.toNat = x.toNat + 2 ^ 32 - y.toNat := by omega
  exact eq_ofNat_of_toNat_eq (hcomm ▸ BitVec.toNat_sub x y)

theorem mul_eq_ofNat (x y : Word) : x * y = BitVec.ofNat 32 (x.toNat * y.toNat % 2 ^ 32) :=
  eq_ofNat_of_toNat_eq (BitVec.toNat_mul x y)

theorem div_eq_ofNat (x y : Word) : x / y = BitVec.ofNat 32 (x.toNat / y.toNat) :=
  eq_ofNat_of_toNat_eq BitVec.toNat_udiv

theorem mod_eq_ofNat (x y : Word) : x % y = BitVec.ofNat 32 (x.toNat % y.toNat) :=
  eq_ofNat_of_toNat_eq BitVec.toNat_umod

/-- The division law on words: no product wraps, and the remainder is below the divisor (R130, G1). -/
theorem toNat_eq_div_mul_add_mod (x : Word) {y : Word} (hy : y ≠ 0) :
    x.toNat = (x / y).toNat * y.toNat + (x % y).toNat ∧ (x % y).toNat < y.toNat := by
  have hpos : 0 < y.toNat := Nat.pos_of_ne_zero fun h => hy (BitVec.eq_of_toNat_eq h)
  rw [BitVec.toNat_udiv, BitVec.toNat_umod]
  exact ⟨(Nat.div_add_mod' x.toNat y.toNat).symm, Nat.mod_lt _ hpos⟩

/-! ### RRADD, RRSUB and RRMUX -/

/-- An instruction that validates three fields and then writes one value, computed from the first two registers, to the
third. -/
theorem completes_of_exec_eq_withRegs3 {i : Instr} {s : State} {r1 r2 dr : Field} {v : RegIdx → RegIdx → Word}
    (h : exec i s = withRegs3 r1 r2 dr s fun a b d => complete s [(d, v a b)])
    (h1 : r1.toNat < rCount) (h2 : r2.toNat < rCount) (hd : dr.toNat < rCount) :
    Completes i s fun j => if j = regOf dr hd then v (regOf r1 h1) (regOf r2 h2) else s.reg j :=
  completes_of_exec_eq_complete_one (h.trans (withRegs3_of_lt h1 h2 hd s _))

section
variable {r1 r2 dr : Field} (h1 : r1.toNat < rCount) (h2 : r2.toNat < rCount) (hd : dr.toNat < rCount) (s : State)

theorem completes_rradd : Completes (.rradd r1 r2 dr) s fun j =>
    if j = regOf dr hd then s.reg (regOf r1 h1) + s.reg (regOf r2 h2) else s.reg j :=
  completes_of_exec_eq_withRegs3 (v := fun a b => s.reg a + s.reg b) rfl h1 h2 hd

theorem completes_rrsub : Completes (.rrsub r1 r2 dr) s fun j =>
    if j = regOf dr hd then s.reg (regOf r1 h1) - s.reg (regOf r2 h2) else s.reg j :=
  completes_of_exec_eq_withRegs3 (v := fun a b => s.reg a - s.reg b) rfl h1 h2 hd

theorem completes_rrmux : Completes (.rrmux r1 r2 dr) s fun j =>
    if j = regOf dr hd then s.reg (regOf r1 h1) * s.reg (regOf r2 h2) else s.reg j :=
  completes_of_exec_eq_withRegs3 (v := fun a b => s.reg a * s.reg b) rfl h1 h2 hd

end

/-! ### RRDIV -/

section
variable {cfg : Config} {d : RegIdx} (q r : Word)

theorem divWrites_of_ne (h : d ≠ cfg.idxRmdr) : divWrites cfg d q r = [(d, q), (cfg.idxRmdr, r)] := by
  rw [divWrites, if_neg h]

theorem divWrites_remainder (h : d = cfg.idxRmdr) (hc : cfg.divCollision = .remainder) :
    divWrites cfg d q r = [(cfg.idxRmdr, r)] := by
  rw [divWrites, if_pos h, hc]

theorem divWrites_quotient (h : d = cfg.idxRmdr) (hc : cfg.divCollision = .quotient) :
    divWrites cfg d q r = [(cfg.idxRmdr, q)] := by
  rw [divWrites, if_pos h, hc]

end

section
variable {s : State} {r1 r2 dr : Field} (h1 : r1.toNat < rCount) (h2 : r2.toNat < rCount) (hd : dr.toNat < rCount)

/-- RRDIV past its validation (R128). -/
theorem exec_rrdiv_of_lt (s : State) : exec (.rrdiv r1 r2 dr) s =
    if s.reg (regOf r2 h2) = 0 then raise s .divisionByZero
    else complete s (divWrites s.config (regOf dr hd) (s.reg (regOf r1 h1) / s.reg (regOf r2 h2))
      (s.reg (regOf r1 h1) % s.reg (regOf r2 h2))) :=
  withRegs3_of_lt h1 h2 hd s _

include h1 hd in
theorem failsWith_rrdiv_of_zero (hb : s.reg (regOf r2 h2) = 0) : FailsWith (.rrdiv r1 r2 dr) s .divisionByZero :=
  failsWith_of_exec_eq_raise ((exec_rrdiv_of_lt h1 h2 hd s).trans (if_pos hb))

variable (hb : s.reg (regOf r2 h2) ≠ 0)
include hb

theorem exec_rrdiv_of_ne_zero : exec (.rrdiv r1 r2 dr) s =
    complete s (divWrites s.config (regOf dr hd) (s.reg (regOf r1 h1) / s.reg (regOf r2 h2))
      (s.reg (regOf r1 h1) % s.reg (regOf r2 h2))) :=
  (exec_rrdiv_of_lt h1 h2 hd s).trans (if_neg hb)

/-- R128: quotient and remainder land together. -/
theorem completes_rrdiv_of_ne (hne : regOf dr hd ≠ s.config.idxRmdr) : Completes (.rrdiv r1 r2 dr) s fun j =>
    if j = s.config.idxRmdr then s.reg (regOf r1 h1) % s.reg (regOf r2 h2)
    else if j = regOf dr hd then s.reg (regOf r1 h1) / s.reg (regOf r2 h2) else s.reg j :=
  completes_of_exec_eq_complete_two (divWrites_of_ne _ _ hne ▸ exec_rrdiv_of_ne_zero h1 h2 hd hb)

/-- R131: the default keeps the remainder. -/
theorem completes_rrdiv_remainder (he : regOf dr hd = s.config.idxRmdr) (hc : s.config.divCollision = .remainder) :
    Completes (.rrdiv r1 r2 dr) s fun j =>
      if j = s.config.idxRmdr then s.reg (regOf r1 h1) % s.reg (regOf r2 h2) else s.reg j :=
  completes_of_exec_eq_complete_one (divWrites_remainder _ _ he hc ▸ exec_rrdiv_of_ne_zero h1 h2 hd hb)

/-- R131 with the parameter's other value: the quotient is kept. -/
theorem completes_rrdiv_quotient (he : regOf dr hd = s.config.idxRmdr) (hc : s.config.divCollision = .quotient) :
    Completes (.rrdiv r1 r2 dr) s fun j =>
      if j = s.config.idxRmdr then s.reg (regOf r1 h1) / s.reg (regOf r2 h2) else s.reg j :=
  completes_of_exec_eq_complete_one (divWrites_quotient _ _ he hc ▸ exec_rrdiv_of_ne_zero h1 h2 hd hb)

end

end Sys2Proof.Machine

namespace Sys2Proof

open Machine

/-- Settles O26: RRDIV validates its three fields, then its divisor, and writes by whether DR is `R_RMDR`. -/
theorem rrdivDivides : Obligations.RrdivDivides := by
  refine ⟨encodes_of_instr rfl fun _ _ _ _ => rfl,
    fun s r1 r2 dr => ⟨validates3_of_regFields rfl s, fun h1 h2 hd => ?_⟩⟩
  rw [← div_eq_ofNat, ← mod_eq_ofNat]
  exact ⟨failsWith_rrdiv_of_zero h1 h2 hd, completes_rrdiv_of_ne h1 h2 hd, completes_rrdiv_remainder h1 h2 hd⟩

/-- Settles O27: DR and `R_RMDR` are one register, and the parameter keeps the quotient in it. -/
theorem rrdivCollisionCanKeepTheQuotient : Obligations.RrdivCollisionCanKeepTheQuotient := by
  intro s r1 r2 dr h1 h2 hd hb he hc
  rw [← div_eq_ofNat]
  exact completes_rrdiv_quotient h1 h2 hd hb he hc

/-- Settles O28: `Continue` means the divisor was not 0, so both results were written, and they obey the division law
on words. -/
theorem divisionLaw : Obligations.DivisionLaw := by
  intro s t r1 r2 dr h1 h2 hd hne hexec hst
  have hb : s.reg (regOf r2 h2) ≠ 0 := by
    intro hzero
    rw [(failsWith_rrdiv_of_zero h1 h2 hd hzero).statuses_of_exec_eq hexec] at hst
    simp at hst
  obtain ⟨hcfg, hreg⟩ := (completes_rrdiv_of_ne h1 h2 hd hb hne).of_exec_eq hexec
  have hquot : t.reg (regOf dr hd) = s.reg (regOf r1 h1) / s.reg (regOf r2 h2) := by
    rw [hreg, if_neg hne, if_pos rfl]
  have hrem : t.reg t.config.idxRmdr = s.reg (regOf r1 h1) % s.reg (regOf r2 h2) := by
    rw [hcfg, hreg, if_pos rfl]
  rw [hquot, hrem]
  exact toNat_eq_div_mul_add_mod _ hb

/-- Settles O29: the addition changes only `a`, so the subtraction takes the same `x[b]` off again, modulo 2^32. -/
theorem addThenSubtractRestores : Obligations.AddThenSubtractRestores := by
  intro s a b ha hb hab
  obtain ⟨t, ht, -, -, ht_st, ht_reg⟩ := completes_rradd ha hb ha s
  obtain ⟨u, hu, -, -, hu_st, hu_reg⟩ := completes_rrsub ha hb ha t
  refine ⟨t, u, ht, hu, by simp [hu_st, ht_st], regFile_ext fun j => ?_⟩
  have hta : t.reg (regOf a ha) = s.reg (regOf a ha) + s.reg (regOf b hb) := (ht_reg _).trans (if_pos rfl)
  have htb : t.reg (regOf b hb) = s.reg (regOf b hb) := (ht_reg _).trans (if_neg (regOf_ne hab ha hb).symm)
  by_cases hj : j = regOf a ha
  · calc u.reg j = t.reg (regOf a ha) - t.reg (regOf b hb) := (hu_reg j).trans (if_pos hj)
      _ = s.reg (regOf a ha) + s.reg (regOf b hb) - s.reg (regOf b hb) := by rw [hta, htb]
      _ = s.reg j := by rw [BitVec.add_sub_cancel, hj]
  · calc u.reg j = t.reg j := (hu_reg j).trans (if_neg hj)
      _ = s.reg j := (ht_reg j).trans (if_neg hj)

/-- Settles O23: RRADD's one write is the sum of the words. -/
theorem rraddAdds : Obligations.RraddAdds := by
  refine ⟨encodes_of_instr rfl fun _ _ _ _ => rfl,
    fun s r1 r2 dr => ⟨validates3_of_regFields rfl s, fun h1 h2 hd => ?_⟩⟩
  rw [← add_eq_ofNat]
  exact completes_rradd h1 h2 hd s

/-- Settles O24: RRSUB's one write is the difference of the words. -/
theorem rrsubSubtracts : Obligations.RrsubSubtracts := by
  refine ⟨encodes_of_instr rfl fun _ _ _ _ => rfl,
    fun s r1 r2 dr => ⟨validates3_of_regFields rfl s, fun h1 h2 hd => ?_⟩⟩
  rw [← sub_eq_ofNat]
  exact completes_rrsub h1 h2 hd s

/-- Settles O25: RRMUX's one write is the low half of the product. -/
theorem rrmuxMultiplies : Obligations.RrmuxMultiplies := by
  refine ⟨encodes_of_instr rfl fun _ _ _ _ => rfl,
    fun s r1 r2 dr => ⟨validates3_of_regFields rfl s, fun h1 h2 hd => ?_⟩⟩
  rw [← mul_eq_ofNat]
  exact completes_rrmux h1 h2 hd s

end Sys2Proof
end

section
/-! The unconditional jumps (43_jumps.md). Each is said once on words (`completes_jumpa` and so on), as one write to
`R_PC`; the rules follow by the value of the word operation, and two jumps undo each other when their operations on
`R_PC` do. -/

namespace Sys2Proof.Machine

/-! ### Moving by a zero-extended immediate, as numbers (R74) -/

theorem add_zext32_eq_ofNat (x : Word) (imm : Imm) :
    x + zext32 imm = BitVec.ofNat 32 ((x.toNat + imm.toNat) % 2 ^ 32) := by
  rw [add_eq_ofNat, zext32_toNat]

theorem sub_zext32_eq_ofNat (x : Word) (imm : Imm) :
    x - zext32 imm = BitVec.ofNat 32 ((x.toNat + 2 ^ 32 - imm.toNat) % 2 ^ 32) := by
  rw [sub_eq_ofNat, zext32_toNat]

/-! ### The immediate forms -/

/-- An instruction that is a jump leaves the target in `R_PC` and changes no other register. -/
theorem completes_of_exec_eq_jumpTo {i : Instr} {s : State} {v : Word} (h : exec i s = jumpTo s v) :
    Completes i s fun j => if j = s.config.idxPc then v else s.reg j :=
  completes_of_exec_eq_complete_one h

section
variable (imm : Imm) (s : State)

theorem exec_jumpf : exec (.jumpf imm) s = jumpTo s (s.pc + zext32 imm) := rfl

theorem exec_jumpb : exec (.jumpb imm) s = jumpTo s (s.pc - zext32 imm) := rfl

theorem completes_jumpa : Completes (.jumpa imm) s fun j =>
    if j = s.config.idxPc then zext32 imm else s.reg j :=
  completes_of_exec_eq_jumpTo rfl

theorem completes_jumpf : Completes (.jumpf imm) s fun j =>
    if j = s.config.idxPc then s.pc + zext32 imm else s.reg j :=
  completes_of_exec_eq_jumpTo (exec_jumpf imm s)

theorem completes_jumpb : Completes (.jumpb imm) s fun j =>
    if j = s.config.idxPc then s.pc - zext32 imm else s.reg j :=
  completes_of_exec_eq_jumpTo (exec_jumpb imm s)

end

/-! ### The register forms -/

/-- An instruction that validates one field and then jumps to a target computed from that register. -/
theorem completes_of_exec_eq_withReg_jumpTo {i : Instr} {s : State} {reg : Field} {v : RegIdx → Word}
    (h : exec i s = withReg reg s fun r => jumpTo s (v r)) (hr : reg.toNat < rCount) :
    Completes i s fun j => if j = s.config.idxPc then v (regOf reg hr) else s.reg j :=
  completes_of_exec_eq_jumpTo (h.trans (withReg_of_lt hr s _))

section
variable {reg : Field} (h : reg.toNat < rCount) (s : State)

theorem completes_rjmpa : Completes (.rjmpa reg) s fun j =>
    if j = s.config.idxPc then s.reg (regOf reg h) else s.reg j :=
  completes_of_exec_eq_withReg_jumpTo (v := fun r => s.reg r) rfl h

theorem completes_rjmpf : Completes (.rjmpf reg) s fun j =>
    if j = s.config.idxPc then s.pc + s.reg (regOf reg h) else s.reg j :=
  completes_of_exec_eq_withReg_jumpTo (v := fun r => s.pc + s.reg r) rfl h

theorem completes_rjmpb : Completes (.rjmpb reg) s fun j =>
    if j = s.config.idxPc then s.pc - s.reg (regOf reg h) else s.reg j :=
  completes_of_exec_eq_withReg_jumpTo (v := fun r => s.pc - s.reg r) rfl h

end

/-! ### Two jumps that undo each other -/

/-- A write of the value a register held takes back an earlier write to it. -/
theorem write_write_read (x : RegFile) (i : RegIdx) (v : Word) : (x.write i v).write i (x.read i) = x := by
  refine regFile_ext fun j => ?_
  by_cases hj : j = i
  · rw [hj, read_write_same]
  · rw [read_write_other _ _ hj, read_write_other _ _ hj]

/-- Two relative jumps by `f` and then `g` leave the register file as it was, if `g` undoes `f` on words. -/
theorem exec_exec_regs_of_leftInverse {i i' : Instr} {f g : Word → Word} (hi : ∀ s, exec i s = jumpTo s (f s.pc))
    (hi' : ∀ s, exec i' s = jumpTo s (g s.pc)) (hgf : Function.LeftInverse g f) (s : State) :
    ∃ t u, exec i s = .next t ∧ exec i' t = .next u ∧ u.regs = s.regs := by
  obtain ⟨t, ht, ht_cfg, -, -, ht_regs⟩ := jumpTo_spec s (f s.pc)
  obtain ⟨u, hu, -, -, -, hu_regs⟩ := jumpTo_spec t (g t.pc)
  have hpc : t.pc = f s.pc := by
    rw [State.pc, State.reg, ht_cfg, ht_regs, read_write_same]
  refine ⟨t, u, (hi s).trans ht, (hi' t).trans hu, ?_⟩
  calc u.regs = (s.regs.write s.config.idxPc (f s.pc)).write s.config.idxPc (g (f s.pc)) := by
        rw [hu_regs, hpc, ht_cfg, ht_regs]
    _ = (s.regs.write s.config.idxPc (f s.pc)).write s.config.idxPc (s.regs.read s.config.idxPc) := by
        rw [hgf s.pc]; rfl
    _ = s.regs := write_write_read _ _ _

end Sys2Proof.Machine

namespace Sys2Proof

open Machine

/-- Settles O32: JUMPB's one write is the difference of the words, and adding and subtracting one word are inverse to
each other, in either order. -/
theorem jumpbMovesPcBack : Obligations.JumpbMovesPcBack := by
  refine ⟨encodes_of_instr rfl fun _ _ _ _ => rfl, fun s imm => ?_, fun s imm => ⟨?_, ?_⟩⟩
  · rw [← sub_zext32_eq_ofNat]
    exact completes_jumpb imm s
  · exact exec_exec_regs_of_leftInverse (f := (· + zext32 imm)) (g := (· - zext32 imm))
      (exec_jumpf imm) (exec_jumpb imm) (fun x => BitVec.add_sub_cancel x (zext32 imm)) s
  · exact exec_exec_regs_of_leftInverse (f := (· - zext32 imm)) (g := (· + zext32 imm))
      (exec_jumpb imm) (exec_jumpf imm) (fun x => BitVec.sub_add_cancel x (zext32 imm)) s

/-- Settles O30: JUMPA's word has the immediate in B and C, and its one write is the zero-extended immediate. -/
theorem jumpaSetsPc : Obligations.JumpaSetsPc := by
  refine ⟨encodes_of_instr rfl fun _ _ _ _ => rfl, fun s imm => ?_⟩
  rw [← zext32_eq_ofNat]
  exact completes_jumpa imm s

/-- Settles O31: JUMPF's one write is the sum of the words. -/
theorem jumpfAdvancesPc : Obligations.JumpfAdvancesPc := by
  refine ⟨encodes_of_instr rfl fun _ _ _ _ => rfl, fun s imm => ?_⟩
  rw [← add_zext32_eq_ofNat]
  exact completes_jumpf imm s

/-- Settles O33: RJMPA's register is field A, its only register field, and its one write is that register's value. -/
theorem rjmpaSetsPcFromARegister : Obligations.RjmpaSetsPcFromARegister :=
  ⟨encodes_of_instr rfl fun _ _ _ _ => rfl,
   fun s _ => ⟨validates1_of_regFields rfl s, fun h => completes_rjmpa h s⟩⟩

/-- Settles O34: RJMPF's one write is the sum of the words, also when the register is `R_PC` itself. -/
theorem rjmpfAdvancesPcByARegister : Obligations.RjmpfAdvancesPcByARegister := by
  refine ⟨encodes_of_instr rfl fun _ _ _ _ => rfl, fun s reg => ⟨validates1_of_regFields rfl s, fun h => ?_⟩⟩
  rw [← add_eq_ofNat]
  exact completes_rjmpf h s

/-- Settles O35: RJMPB's one write is the difference of the words, also when the register is `R_PC` itself. -/
theorem rjmpbMovesPcBackByARegister : Obligations.RjmpbMovesPcBackByARegister := by
  refine ⟨encodes_of_instr rfl fun _ _ _ _ => rfl, fun s reg => ⟨validates1_of_regFields rfl s, fun h => ?_⟩⟩
  rw [← sub_eq_ofNat]
  exact completes_rjmpb h s

end Sys2Proof
end

section
/-! The comparisons (44_comparisons.md). Each validates two fields and then writes one value, computed from the two
registers as unsigned numbers: the six flag comparisons are one lemma over their relation (R155), and RRCMP's code is
the three-way order of the two numbers (R162). -/

namespace Sys2Proof.Machine

/-! ### What a comparison writes, as an order of numbers -/

/-- R155: the flag of a relation that can be decided. -/
theorem flagWord_decide (p : Prop) [Decidable p] : flagWord (decide p) = if p then 1 else 0 := by
  by_cases h : p
  · rw [decide_eq_true h, flagWord_true, if_pos h]
  · rw [decide_eq_false h, flagWord_false, if_neg h]

/-- R162: the codes are 2, 1 and 4, by the order of the two values as numbers. -/
theorem orderCode_eq_ite_toNat (a b : Word) :
    orderCode a b = if a.toNat = b.toNat then 2 else if b.toNat < a.toNat then 1 else 4 := by
  rcases orderCode_cases a b with ⟨heq, hcode⟩ | ⟨hgt, hcode⟩ | ⟨hlt, hcode⟩
  · rw [hcode, if_pos (congrArg BitVec.toNat heq), codeEqual]
  · rw [hcode, if_neg hgt.ne', if_pos hgt, codeGreater]
  · rw [hcode, if_neg hlt.ne, if_neg hlt.asymm, codeLess]

/-! ### Completion -/

/-- An instruction that validates two fields and then writes one value, computed from the two registers, to a register
that no field names. -/
theorem completes_of_exec_eq_withRegs2 {i : Instr} {s : State} {r1 r2 : Field} {d : RegIdx}
    {v : RegIdx → RegIdx → Word} (h : exec i s = withRegs2 r1 r2 s fun a b => complete s [(d, v a b)])
    (h1 : r1.toNat < rCount) (h2 : r2.toNat < rCount) :
    Completes i s fun j => if j = d then v (regOf r1 h1) (regOf r2 h2) else s.reg j :=
  completes_of_exec_eq_complete_one (h.trans (withRegs2_of_lt h1 h2 s _))

/-- R155: a flag comparison by the relation `R` leaves 1 in `R_COND` if `R` holds of its two registers and 0 if not. -/
theorem completes_of_exec_eq_compareWith {i : Instr} {s : State} {r1 r2 : Field} (R : Nat → Nat → Prop)
    [DecidableRel R] (h : exec i s = compareWith (fun a b => decide (R a b)) r1 r2 s)
    (h1 : r1.toNat < rCount) (h2 : r2.toNat < rCount) :
    Completes i s fun j => if j = s.config.idxCond then
      if R (s.reg (regOf r1 h1)).toNat (s.reg (regOf r2 h2)).toNat then 1 else 0 else s.reg j := by
  rw [← flagWord_decide]
  exact completes_of_exec_eq_withRegs2 (v := fun a b => flagWord (decide (R (s.reg a).toNat (s.reg b).toNat))) h h1 h2

theorem completes_rrcmp {r1 r2 : Field} (h1 : r1.toNat < rCount) (h2 : r2.toNat < rCount) (s : State) :
    Completes (.rrcmp r1 r2) s fun j =>
      if j = s.config.idxComp then orderCode (s.reg (regOf r1 h1)) (s.reg (regOf r2 h2)) else s.reg j :=
  completes_of_exec_eq_withRegs2 (v := fun a b => orderCode (s.reg a) (s.reg b)) rfl h1 h2

end Sys2Proof.Machine

namespace Sys2Proof

open Machine

/-- Settles O36: RREQL is the flag comparison by equality. -/
theorem rreqlComparesEqual : Obligations.RreqlComparesEqual :=
  ⟨encodes_of_instr rfl fun _ _ _ _ => rfl,
   fun s _ _ => ⟨validates2_of_regFields rfl s, completes_of_exec_eq_compareWith (· = ·) rfl⟩⟩

/-- Settles O37: RRNQL is the flag comparison by inequality. -/
theorem rrnqlComparesNotEqual : Obligations.RrnqlComparesNotEqual :=
  ⟨encodes_of_instr rfl fun _ _ _ _ => rfl,
   fun s _ _ => ⟨validates2_of_regFields rfl s, completes_of_exec_eq_compareWith (· ≠ ·) rfl⟩⟩

/-- Settles O38: RRGTE is the flag comparison by `≥`, the first register on the left. -/
theorem rrgteComparesGreaterOrEqual : Obligations.RrgteComparesGreaterOrEqual :=
  ⟨encodes_of_instr rfl fun _ _ _ _ => rfl,
   fun s _ _ => ⟨validates2_of_regFields rfl s, completes_of_exec_eq_compareWith (· ≥ ·) rfl⟩⟩

/-- Settles O39: RRLTE is the flag comparison by `≤`, the first register on the left. -/
theorem rrlteComparesLessOrEqual : Obligations.RrlteComparesLessOrEqual :=
  ⟨encodes_of_instr rfl fun _ _ _ _ => rfl,
   fun s _ _ => ⟨validates2_of_regFields rfl s, completes_of_exec_eq_compareWith (· ≤ ·) rfl⟩⟩

/-- Settles O40: RRGTX is the flag comparison by `>`, the first register on the left. -/
theorem rrgtxComparesGreater : Obligations.RrgtxComparesGreater :=
  ⟨encodes_of_instr rfl fun _ _ _ _ => rfl,
   fun s _ _ => ⟨validates2_of_regFields rfl s, completes_of_exec_eq_compareWith (· > ·) rfl⟩⟩

/-- Settles O41: RRLTX is the flag comparison by `<`, the first register on the left. -/
theorem rrltxComparesLess : Obligations.RrltxComparesLess :=
  ⟨encodes_of_instr rfl fun _ _ _ _ => rfl,
   fun s _ _ => ⟨validates2_of_regFields rfl s, completes_of_exec_eq_compareWith (· < ·) rfl⟩⟩

/-- Settles O42: RRCMP's one write is the code of the order, to `R_COMP`; `R_COND` is not written. -/
theorem rrcmpComparesThreeWays : Obligations.RrcmpComparesThreeWays := by
  refine ⟨encodes_of_instr rfl fun _ _ _ _ => rfl,
    fun s r1 r2 => ⟨validates2_of_regFields rfl s, fun h1 h2 => ?_⟩⟩
  rw [← orderCode_eq_ite_toNat]
  exact completes_rrcmp h1 h2 s

end Sys2Proof
end

section
/-! The conditional jumps (45_conditional_jumps.md). Each is `jumpToIf` on a test of the whole of `R_COND` (R174), after
the validation of its field if it has one. The two forms of a pair are one lemma over their target, and the rule on
`R_COMP` is one lemma per shared operation over two answers, from a state and from that state with `R_COMP` replaced. -/

namespace Sys2Proof.Machine

/-! ### A conditional jump -/

theorem jumpToIf_spec (c : Bool) (s : State) (v : Word) :
    ∃ t, jumpToIf c s v = .next t ∧ t.config = s.config ∧ t.inputs = s.inputs ∧
      t.statuses = s.statuses ++ [.cont] ∧ t.regs = if c then s.regs.write s.config.idxPc v else s.regs := by
  cases c with
  | true => exact jumpTo_spec s v
  | false => exact complete_spec s []

/-- An instruction that is a jump on the condition `P` leaves the target in `R_PC` if `P` holds, and changes no other
register. -/
theorem completes_of_exec_eq_jumpToIf {i : Instr} {s : State} {c : Bool} {v : Word} {P : Prop} [Decidable P]
    (h : exec i s = jumpToIf c s v) (hc : c = true ↔ P) :
    Completes i s fun j => if j = s.config.idxPc ∧ P then v else s.reg j := by
  obtain ⟨t, ht, hcfg, hin, hst, hregs⟩ := jumpToIf_spec c s v
  refine ⟨t, h.trans ht, hcfg, hin, hst, fun j => ?_⟩
  rw [State.reg, hregs]
  by_cases hP : P
  · simp only [hc.mpr hP, hP, if_true, and_true]
    exact read_write s.regs s.config.idxPc j v
  · simp only [hc, hP, if_false, and_false]
    rfl

/-- The two forms of a pair, with one target: the one whose test holds jumps, the other changes nothing. -/
theorem exec_pair_of_eq_jumpToIf {i i' : Instr} {s : State} {v : Word} (hq : exec i s = jumpToIf s.flagSet s v)
    (hn : exec i' s = jumpToIf s.flagClear s v) :
    ∃ t u, exec i s = .next t ∧ exec i' s = .next u ∧ (s.cond ≠ 0 → t.pc = v ∧ u.regs = s.regs) ∧
      (s.cond = 0 → t.regs = s.regs ∧ u.pc = v) := by
  obtain ⟨t, ht, ht_cfg, -, -, ht_regs⟩ := jumpToIf_spec s.flagSet s v
  obtain ⟨u, hu, hu_cfg, -, -, hu_regs⟩ := jumpToIf_spec s.flagClear s v
  refine ⟨t, u, hq.trans ht, hn.trans hu, fun hset => ?_, fun hclear => ?_⟩
  · rw [if_pos ((flagSet_iff s).mpr hset)] at ht_regs
    rw [if_neg (mt (flagClear_iff s).mp hset)] at hu_regs
    exact ⟨by rw [State.pc, State.reg, ht_cfg, ht_regs, read_write_same], hu_regs⟩
  · rw [if_neg (mt (flagSet_iff s).mp (not_not.mpr hclear))] at ht_regs
    rw [if_pos ((flagClear_iff s).mpr hclear)] at hu_regs
    exact ⟨ht_regs, by rw [State.pc, State.reg, hu_cfg, hu_regs, read_write_same]⟩

/-! ### The four instructions -/

theorem exec_jumpq (imm : Imm) (s : State) :
    exec (.jumpq imm) s = jumpToIf s.flagSet s (s.pc + zext32 imm) := rfl

theorem exec_jumpn (imm : Imm) (s : State) :
    exec (.jumpn imm) s = jumpToIf s.flagClear s (s.pc + zext32 imm) := rfl

theorem exec_rjmpq (reg : Field) (s : State) :
    exec (.rjmpq reg) s = withReg reg s fun r => jumpToIf s.flagSet s (s.reg r) := rfl

theorem exec_rjmpn (reg : Field) (s : State) :
    exec (.rjmpn reg) s = withReg reg s fun r => jumpToIf s.flagClear s (s.reg r) := rfl

section
variable {reg : Field} (h : reg.toNat < rCount) (s : State)

theorem exec_rjmpq_of_lt : exec (.rjmpq reg) s = jumpToIf s.flagSet s (s.reg (regOf reg h)) := by
  rw [exec_rjmpq, withReg_of_lt h]

theorem exec_rjmpn_of_lt : exec (.rjmpn reg) s = jumpToIf s.flagClear s (s.reg (regOf reg h)) := by
  rw [exec_rjmpn, withReg_of_lt h]

end

/-! ### Replacing `R_COMP` -/

/-- The machine with `R_COMP` replaced by `v`. -/
def State.withComp (s : State) (v : Word) : State := { s with regs := s.regs.write s.config.idxComp v }

theorem withComp_reg (s : State) (v : Word) {j : RegIdx} (h : j ≠ s.config.idxComp) : (s.withComp v).reg j = s.reg j :=
  read_write_other s.regs v h

theorem withComp_pc {s : State} (hadm : s.config.Admissible) (v : Word) : (s.withComp v).pc = s.pc := by
  obtain ⟨-, hpcComp, -⟩ := specials_ne hadm
  exact withComp_reg s v hpcComp

theorem withComp_cond {s : State} (hadm : s.config.Admissible) (v : Word) : (s.withComp v).cond = s.cond := by
  obtain ⟨-, -, -, -, hcondComp⟩ := specials_ne hadm
  exact withComp_reg s v hcondComp

theorem withComp_flagSet {s : State} (hadm : s.config.Admissible) (v : Word) :
    (s.withComp v).flagSet = s.flagSet := by
  rw [State.flagSet, withComp_cond hadm, State.flagSet]

theorem withComp_flagClear {s : State} (hadm : s.config.Admissible) (v : Word) :
    (s.withComp v).flagClear = s.flagClear := by
  rw [State.flagClear, withComp_cond hadm, State.flagClear]

/-- Writes to different registers land the same in either order. -/
theorem write_comm (x : RegFile) {i j : RegIdx} (v w : Word) (h : i ≠ j) :
    (x.write i v).write j w = (x.write j w).write i v :=
  Vector.set_comm v w fun e => h (Fin.ext e)

/-- A conditional jump writes at most `R_PC`, so it keeps `R_COND` (R174). -/
theorem jumpToIf_keeps_cond {c : Bool} {s t : State} {v : Word} (hadm : s.config.Admissible)
    (h : jumpToIf c s v = .next t) : t.cond = s.cond := by
  obtain ⟨hpcCond, -⟩ := specials_ne hadm
  obtain ⟨u, hu, hcfg, -, -, hregs⟩ := jumpToIf_spec c s v
  obtain rfl : u = t := Host.Outcome.next.inj (hu.symm.trans h)
  rw [State.cond, State.reg, hcfg, hregs]
  cases c with
  | true => exact read_write_other s.regs v hpcCond.symm
  | false => rfl

/-- R174 of two answers, `a` in state `s` and `a'` in `s.withComp v`: the flag is as it was in both, they hand back the
same statuses, and their registers differ by the replaced `R_COMP` alone. -/
def KeepsCondIgnoresComp (s : State) (v : Word) (a a' : Result) : Prop :=
  ∃ t u, a = .next t ∧ a' = .next u ∧ t.cond = s.cond ∧ u.cond = s.cond ∧ u.statuses = t.statuses ∧
    u.regs = t.regs.write s.config.idxComp v

section
variable {s : State} {v : Word} (hadm : s.config.Admissible)
include hadm

theorem keepsCondIgnoresComp_raise (e : Status) : KeepsCondIgnoresComp s v (raise s e) (raise (s.withComp v) e) :=
  ⟨_, _, rfl, rfl, rfl, withComp_cond hadm v, rfl, rfl⟩

/-- Conditional jumps on one test and to one target. -/
theorem keepsCondIgnoresComp_jumpToIf {c c' : Bool} {w w' : Word} (hc : c' = c) (hw : w' = w) :
    KeepsCondIgnoresComp s v (jumpToIf c s w) (jumpToIf c' (s.withComp v) w') := by
  subst hc hw
  obtain ⟨-, hpcComp, -⟩ := specials_ne hadm
  obtain ⟨t, ht, -, -, ht_st, ht_regs⟩ := jumpToIf_spec c' s w'
  obtain ⟨u, hu, -, -, hu_st, hu_regs⟩ := jumpToIf_spec c' (s.withComp v) w'
  refine ⟨t, u, ht, hu, jumpToIf_keeps_cond hadm ht, ?_, hu_st.trans ht_st.symm, ?_⟩
  · exact (jumpToIf_keeps_cond (s := s.withComp v) hadm hu).trans (withComp_cond hadm v)
  · rw [hu_regs, ht_regs]
    cases c' with
    | true => exact write_comm s.regs v w' hpcComp.symm
    | false => rfl

/-- Validation depends on the field alone, so both answers raise its error or both go on with its register. -/
theorem keepsCondIgnoresComp_withReg {f : Field} {k k' : RegIdx → Result}
    (h : ∀ hf : f.toNat < rCount, KeepsCondIgnoresComp s v (k (regOf f hf)) (k' (regOf f hf))) :
    KeepsCondIgnoresComp s v (withReg f s k) (withReg f (s.withComp v) k') := by
  rcases Nat.lt_or_ge f.toNat rCount with hf | hf
  · rw [withReg_of_lt hf, withReg_of_lt hf]
    exact h hf
  · rw [withReg_of_ge hf, withReg_of_ge hf]
    exact keepsCondIgnoresComp_raise hadm _

/-- R174 of each of the four: no register but `R_COND`, `R_PC` and the operand is read, and `R_COMP` is none of them. -/
theorem keepsCondIgnoresComp_exec {i : Instr} (hop : i.opcode ∈ [Opcode.rjmpq, .rjmpn, .jumpq, .jumpn])
    (hfields : s.config.idxComp.val ∉ i.regFields.map BitVec.toNat) :
    KeepsCondIgnoresComp s v (exec i s) (exec i (s.withComp v)) := by
  have operand {f : Field} (hmem : f ∈ i.regFields) (hf : f.toNat < rCount) :
      (s.withComp v).reg (regOf f hf) = s.reg (regOf f hf) :=
    withComp_reg s v fun e => hfields (List.mem_map.mpr ⟨f, hmem, congrArg Fin.val e⟩)
  have target (imm : Imm) : (s.withComp v).pc + zext32 imm = s.pc + zext32 imm := by rw [withComp_pc hadm]
  cases i with
  | rjmpq reg =>
    exact keepsCondIgnoresComp_withReg hadm fun hf =>
      keepsCondIgnoresComp_jumpToIf hadm (withComp_flagSet hadm v) (operand List.mem_cons_self hf)
  | rjmpn reg =>
    exact keepsCondIgnoresComp_withReg hadm fun hf =>
      keepsCondIgnoresComp_jumpToIf hadm (withComp_flagClear hadm v) (operand List.mem_cons_self hf)
  | jumpq imm => exact keepsCondIgnoresComp_jumpToIf hadm (withComp_flagSet hadm v) (target imm)
  | jumpn imm => exact keepsCondIgnoresComp_jumpToIf hadm (withComp_flagClear hadm v) (target imm)
  | _ => simp [Instr.opcode] at hop

end

end Sys2Proof.Machine

namespace Sys2Proof

open Machine

/-- Settles O47: the forms of a pair test `R_COND` the opposite ways and jump to the same target, and none of the four
reads `R_COMP` or writes `R_COND`. -/
theorem conditionalJumpsTestTheWholeFlag : Obligations.ConditionalJumpsTestTheWholeFlag := by
  refine ⟨fun s reg h => ?_, fun s imm => ?_, fun i s v hadm hop hfields => ?_⟩
  · exact exec_pair_of_eq_jumpToIf (exec_rjmpq_of_lt h s) (exec_rjmpn_of_lt h s)
  · obtain ⟨t, u, ht, hu, hset, hclear⟩ := exec_pair_of_eq_jumpToIf (exec_jumpq imm s) (exec_jumpn imm s)
    have toNat_target {x : Word} (hx : x = s.pc + zext32 imm) : x.toNat = (s.pc.toNat + imm.toNat) % 2 ^ 32 := by
      rw [hx, BitVec.toNat_add, zext32_toNat]
    exact ⟨t, u, ht, hu, fun h => (hset h).imp toNat_target id, fun h => (hclear h).imp id toNat_target⟩
  · exact keepsCondIgnoresComp_exec hadm hop hfields

/-- Settles O43: RJMPQ's register is field A, its only register field, and it is the jump to that register's value on
`R_COND` not 0. -/
theorem rjmpqJumpsWhenTheFlagIsSet : Obligations.RjmpqJumpsWhenTheFlagIsSet :=
  ⟨encodes_of_instr rfl fun _ _ _ _ => rfl,
   fun s _ => ⟨validates1_of_regFields rfl s,
     fun h => completes_of_exec_eq_jumpToIf (exec_rjmpq_of_lt h s) (flagSet_iff s)⟩⟩

/-- Settles O44: RJMPN's register is field A, its only register field, and it is the jump to that register's value on
`R_COND` 0. -/
theorem rjmpnJumpsWhenTheFlagIsClear : Obligations.RjmpnJumpsWhenTheFlagIsClear :=
  ⟨encodes_of_instr rfl fun _ _ _ _ => rfl,
   fun s _ => ⟨validates1_of_regFields rfl s,
     fun h => completes_of_exec_eq_jumpToIf (exec_rjmpn_of_lt h s) (flagClear_iff s)⟩⟩

/-- Settles O45: JUMPQ's word has the immediate in B and C, and it is the jump to the sum of the words on `R_COND`
not 0. -/
theorem jumpqAdvancesWhenTheFlagIsSet : Obligations.JumpqAdvancesWhenTheFlagIsSet := by
  refine ⟨encodes_of_instr rfl fun _ _ _ _ => rfl, fun s imm => ?_⟩
  rw [← add_zext32_eq_ofNat]
  exact completes_of_exec_eq_jumpToIf (exec_jumpq imm s) (flagSet_iff s)

/-- Settles O46: JUMPN's word has the immediate in B and C, and it is the jump to the sum of the words on `R_COND` 0. -/
theorem jumpnAdvancesWhenTheFlagIsClear : Obligations.JumpnAdvancesWhenTheFlagIsClear := by
  refine ⟨encodes_of_instr rfl fun _ _ _ _ => rfl, fun s imm => ?_⟩
  rw [← add_zext32_eq_ofNat]
  exact completes_of_exec_eq_jumpToIf (exec_jumpn imm s) (flagClear_iff s)

end Sys2Proof
end

section
/-! The reserved opcodes and the bytes without a name (46_reserved.md). -/

namespace Sys2Proof

/-! ### Names and bytes (30_encoding.md R78, R79) -/

theorem Config.opcOf_mem (cfg : Config) (op : Opcode) : cfg.opcOf op ∈ cfg.opc.toList :=
  Vector.mem_toList_iff.mpr (Vector.getElem_mem op.index.isLt)

/-- The names are listed by their places, so every place of the numbering is a name's. -/
theorem Opcode.map_index_all : Opcode.all.map Opcode.index = List.finRange 25 := by decide

theorem Opcode.exists_index_eq (k : Fin 25) : ∃ op : Opcode, op.index = k := by
  have hk : k ∈ Opcode.all.map Opcode.index := Opcode.map_index_all ▸ List.mem_finRange k
  obtain ⟨op, -, hop⟩ := List.mem_map.mp hk
  exact ⟨op, hop⟩

/-- The spec's decision D1, read at one name. -/
theorem toNat_opcOf_spec (op : Opcode) : (Config.spec.opcOf op).toNat = op.index.val := by
  cases op <;> rfl

/-- The default bytes of the names are the bytes below 25. -/
theorem exists_opcOf_spec_eq_iff (b : Field) : (∃ op, Config.spec.opcOf op = b) ↔ b.toNat < 25 := by
  constructor
  · rintro ⟨op, rfl⟩
    rw [toNat_opcOf_spec]
    exact op.index.isLt
  · intro hb
    obtain ⟨op, hop⟩ := Opcode.exists_index_eq ⟨b.toNat, hb⟩
    refine ⟨op, BitVec.eq_of_toNat_eq ?_⟩
    rw [toNat_opcOf_spec, hop]

/-! ### Decoding by the opcode byte (R79, R183) -/

/-- R79: under an admissible numbering a name's byte decodes to the instruction the name makes of the word's fields. -/
theorem decode_of_opcOf_eq {cfg : Config} (h : cfg.Admissible) {w : Word} {op : Opcode}
    (hop : cfg.opcOf op = (decodeFields w).opcode) : decode cfg w = .ok (op.instr (decodeFields w)) := by
  rw [decode_eq_ok_iff h, Opcode.opcode_instr]
  exact ⟨hop, rfl⟩

/-- R183: a byte that is no name's is rejected with that byte, under any numbering. -/
theorem decode_of_forall_opcOf_ne {cfg : Config} {w : Word} (h : ∀ op, cfg.opcOf op ≠ (decodeFields w).opcode) :
    decode cfg w = .error (.unknownOpcode (decodeFields w).opcode) := by
  rw [decode, (Config.opcodeOf_eq_none_iff cfg _).mpr h]

end Sys2Proof

namespace Sys2Proof.Machine

/-- R183: presenting a word without a name raises `UnknownOpcode` with its byte. -/
theorem step_withWord_of_forall_opcOf_ne {s : State} {w : Word}
    (h : ∀ op, s.config.opcOf op ≠ (decodeFields w).opcode) :
    step (s.withWord w) = raise s (.unknownOpcode (decodeFields w).opcode) := by
  rw [step_withWord, present_error (decode_of_forall_opcOf_ne h)]

/-! ### The reserved opcodes (R180 to R182) -/

theorem reservedStatusOf_continues {cfg : Config} (h : cfg.reservedStatus = .continues) (op : Opcode) :
    reservedStatusOf cfg op = .cont := by
  rw [reservedStatusOf, h]

theorem reservedStatusOf_unknownOpcode {cfg : Config} (h : cfg.reservedStatus = .unknownOpcode) (op : Opcode) :
    reservedStatusOf cfg op = .unknownOpcode (cfg.opcOf op) := by
  rw [reservedStatusOf, h]

section
variable {i : Instr} {s : State} {op : Opcode}

/-- A reserved opcode returns `RESERVED_STATUS`, and every register keeps its value. -/
theorem runsTo_of_exec_eq_reserve (h : exec i s = reserve op s) :
    RunsTo i s (reservedStatusOf s.config op) s.reg := by
  obtain ⟨t, ht, hcfg, hin, hst, hregs⟩ := reserve_spec op s
  exact ⟨t, h.trans ht, hcfg, hin, hst, fun j => congrArg (RegFile.read · j) hregs⟩

/-- The spec's decision D11. -/
theorem completes_of_exec_eq_reserve (hc : s.config.reservedStatus = .continues) (h : exec i s = reserve op s) :
    Completes i s s.reg := by
  have hrun := runsTo_of_exec_eq_reserve h
  rwa [reservedStatusOf_continues hc] at hrun

/-- The alternative to D11 that 93_implementation_defined.md U3 names. -/
theorem failsWith_of_exec_eq_reserve (hu : s.config.reservedStatus = .unknownOpcode) (h : exec i s = reserve op s) :
    FailsWith i s (.unknownOpcode (s.config.opcOf op)) := by
  have hrun := runsTo_of_exec_eq_reserve h
  rwa [reservedStatusOf_unknownOpcode hu] at hrun

end

end Sys2Proof.Machine

namespace Sys2Proof

open Machine

/-- Settles O4: a numbering without repetition finds a byte's only name, a byte no name has is raised as an error, and
the default numbering counts the names from 0. -/
theorem opcodeByteSelectsTheOperation : Obligations.OpcodeByteSelectsTheOperation := by
  refine ⟨fun cfg h => ⟨fun _ _ => Config.opcOf_injective h, fun p hFF => ?_, fun w op hop => ?_⟩, fun s w hno => ?_,
    fun b => ?_⟩
  · obtain ⟨-, hnot, -, -⟩ := h
    exact hnot (hFF ▸ cfg.opcOf_mem p)
  · exact ⟨_, decode_of_opcOf_eq h hop, Opcode.opcode_instr _ _⟩
  · obtain ⟨t, ht, hcfg, hin, hst, hregs⟩ := raise_spec s (.unknownOpcode (decodeFields w).opcode)
    exact ⟨t, (step_withWord_of_forall_opcOf_ne hno).trans ht, hcfg, hin, hst,
      fun j => congrArg (RegFile.read · j) hregs⟩
  · calc (∀ op, Config.spec.opcOf op ≠ b)
      _ ↔ ¬ ∃ op, Config.spec.opcOf op = b := not_exists.symm
      _ ↔ ¬ b.toNat < 25 := not_congr (exists_opcOf_spec_eq_iff b)
      _ ↔ 0x19 ≤ b.toNat := Nat.not_lt

/-- Settles O21: each of the three is the one shared operation `reserve` on its own name, and uses no field. -/
theorem reservedOpcodesDoNothing : Obligations.ReservedOpcodesDoNothing := by
  refine ⟨encodes_of_instr rfl fun _ _ _ _ => rfl, encodes_of_instr rfl fun _ _ _ _ => rfl,
    encodes_of_instr rfl fun _ _ _ _ => rfl, fun s => ⟨fun hc => ?_, fun hu => ?_⟩⟩
  · exact ⟨completes_of_exec_eq_reserve (op := .opNthng) hc rfl, completes_of_exec_eq_reserve (op := .opCease) hc rfl,
      completes_of_exec_eq_reserve (op := .opIlegl) hc rfl⟩
  · exact ⟨failsWith_of_exec_eq_reserve hu rfl, failsWith_of_exec_eq_reserve hu rfl,
      failsWith_of_exec_eq_reserve hu rfl⟩

end Sys2Proof
end

section
/-! The statuses the driver is given (40_dispatch.md R112; 60_exceptions.md R191 to R197): the status port shows the
status of the coming cycle's word, and errors alone leave no trace in the registers. -/

namespace Sys2Proof.Machine

/-! ### The status of the coming cycle (R112) -/

section
variable {s : State} {c : PortsIn} {rest : List PortsIn}

/-- A word presented with `rst` low has a status, and it is the one its step appends. -/
theorem statusNow_presented (hin : s.inputs = c :: rest) (hrst : c.rst = false) (hvalid : c.instrValid = true) :
    ∃ (t : State) (st : Status), step s = .next t ∧ t.statuses = s.statuses ++ [st] ∧ s.statusNow = some st := by
  obtain ⟨st, t, ht, -, -, hst, -⟩ := answersWithin_present c.instrWord { s with inputs := rest }
  refine ⟨t, st, (step_presented hin hrst hvalid).trans ht, hst, ?_⟩
  simp [State.statusNow, hin, hrst, hvalid, ht, statusIn, hst]

theorem statusNow_of_step {t : State} {st : Status} (hin : s.inputs = c :: rest) (hrst : c.rst = false)
    (hvalid : c.instrValid = true) (hstep : step s = .next t) (hst : t.statuses = s.statuses ++ [st]) :
    s.statusNow = some st := by
  obtain ⟨u, st', hu, hu_st, hnow⟩ := statusNow_presented hin hrst hvalid
  obtain rfl : u = t := Host.Outcome.next.inj (hu.symm.trans hstep)
  obtain rfl : st' = st := by simpa [hu_st] using hst
  exact hnow

theorem statusNow_no_status (hin : s.inputs = c :: rest) (h : c.instrValid = false ∨ c.rst = true) :
    s.statusNow = none := by
  rcases h with hvalid | hrst
  · simp [State.statusNow, hin, hvalid]
  · simp [State.statusNow, hin, hrst]

theorem isSome_statusNow_iff (hin : s.inputs = c :: rest) :
    s.statusNow.isSome = true ↔ c.instrValid = true ∧ c.rst = false := by
  constructor
  · intro hsome
    by_contra hno
    have hnone : c.instrValid = false ∨ c.rst = true := by simpa [or_iff_not_imp_left] using hno
    simp [statusNow_no_status hin hnone] at hsome
  · rintro ⟨hvalid, hrst⟩
    obtain ⟨-, st, -, -, hnow⟩ := statusNow_presented hin hrst hvalid
    simp [hnow]

end

/-! ### The status port (R191) -/

section
variable {s : State} {st : Status} (idx : Field)

theorem portsOut_statusKind_of_some (h : s.statusNow = some st) : (s.portsOut idx).statusKind = some st.kind := by
  simp [State.portsOut, h]

theorem portsOut_statusInfo_of_some (h : s.statusNow = some st) : (s.portsOut idx).statusInfo = st.info := by
  simp [State.portsOut, h]

theorem portsOut_statusInfo_of_none (h : s.statusNow = none) : (s.portsOut idx).statusInfo = 0 := by
  simp [State.portsOut, h]

end

end Sys2Proof.Machine

namespace Sys2Proof

open Machine

/-- Settles O15: the run's one status per word fixes which statuses were appended (`run_withWords_spec`). -/
theorem consecutiveErrorsLeaveNoTrace : Obligations.ConsecutiveErrorsLeaveNoTrace := by
  intro ws s t sts hrun hst herr
  obtain ⟨u, hu, -, sts', -, hu_st, hregs⟩ := run_withWords_spec ws s
  obtain rfl : u = t := Host.Outcome.next.inj (hu.symm.trans hrun)
  obtain rfl : sts' = sts := List.append_cancel_left (hu_st.symm.trans hst)
  exact hregs herr

/-- Settles O48: the port shows `statusNow`, which is the status the presented word's step appends, or none. -/
theorem statusPortShowsTheStepsStatus : Obligations.StatusPortShowsTheStepsStatus := by
  intro s t c rest idx st hin
  refine ⟨isSome_statusNow_iff hin, fun hvalid hrst hstep hst => ?_, fun h =>
    portsOut_statusInfo_of_none idx (statusNow_no_status hin h)⟩
  have hnow : s.statusNow = some st := statusNow_of_step hin hrst hvalid hstep hst
  rw [portsOut_statusKind_of_some idx hnow, portsOut_statusInfo_of_some idx hnow]
  cases st <;> exact ⟨rfl, rfl⟩

end Sys2Proof
end

section
/-! A reset cycle (70_reset_and_hazards.md R220): the register file is zeroed, and the presented word is not run. -/

namespace Sys2Proof.Machine

@[simp] theorem applyReset_reg (s : State) (j : RegIdx) : s.applyReset.reg j = 0 := read_zero j

/-- R112, D15: `rst` wins over a presented word, so the step does not depend on `instr_valid` or the word. -/
theorem step_reset {s : State} {c : PortsIn} {rest : List PortsIn} (hin : s.inputs = c :: rest)
    (hrst : c.rst = true) : step s = .next (State.applyReset { s with inputs := rest }) := by
  simp [step_cycle s c rest hin, clockEdge, hrst]

end Sys2Proof.Machine

namespace Sys2Proof

open Machine

/-- Settles O8: the step is `applyReset` with the cycle taken off the queue (`step_reset`), which writes nothing but
the register file; that statuses and queue stay is the model's choice (log entry 14). -/
theorem resetCycleZeroesEveryRegister : Obligations.ResetCycleZeroesEveryRegister :=
  fun _ _ _ hin hrst => ⟨_, step_reset hin hrst, rfl, rfl, rfl, applyReset_reg _⟩

end Sys2Proof
end
